-- ==== Sys2Proof/Word.lean ====
section
/-! DEFINITION. The byte, the word and the four bytes of a stored number: the value types every other file uses. -/

namespace Sys2Proof

/-- A byte, an unsigned integer 0 to 255 (R6). -/
abbrev Byte := BitVec 8

/-- A word, a signed integer held in two's complement in 32 bits (R6); its integer value is `toInt`. -/
abbrev Word := BitVec 32

/-- The four bytes of a number (R37): `b0` lies at the lowest address or first in an operand's payload. -/
structure Quad where
  /-- `byte[0]`: the sign and three low bits. -/
  b0 : Byte
  /-- `byte[1]`: weight 256. -/
  b1 : Byte
  /-- `byte[2]`: weight 16. -/
  b2 : Byte
  /-- `byte[3]`: weight 1. -/
  b3 : Byte
  deriving DecidableEq, Repr

end Sys2Proof
end

