-- ==== Sys2Proof/Machine/Codec.lean ====
section
/-! DEFINITION. The Number Codec (R30 to R36), the only way between an integer and the four bytes of a RAM or disk
number or of a payload, and the conversions of R7 between integers, bytes and words. -/

namespace Sys2Proof.Machine

/-- `wrap32(n)` (R7): the word congruent to `n` modulo 2^32. -/
def wrap32 (n : Int) : Word := BitVec.ofInt 32 n

/-- `zext_N(v)` (R7): the low `n` bits of `v`, the bits above them 0. -/
def zext (n : Nat) (v : Word) : Word := (v.setWidth n).setWidth 32

/-- `sext_N(v)` (R7): the low `n` bits of `v`, the bits above them copies of bit `n - 1`. No instruction uses it. -/
def sext (n : Nat) (v : Word) : Word := (v.setWidth n).signExtend 32

/-- The word 0 … 255 of a byte, `zext_8` as read-input uses it (R150). -/
def byteToWord (b : Byte) : Word := zext 8 (b.setWidth 32)

/-- `v[7:0]`, the low byte of a word's two's complement pattern (R151). -/
def lowByte (v : Word) : Byte := v.setWidth 8

/-- `DEC_MIN` (R33). -/
def decMin : Int := -69615

/-- `DEC_MAX` (R33). -/
def decMax : Int := 69622

/-- `ENC_MIN` (R34). -/
def encMin : Int := -65535

/-- `ENC_MAX` (R34). -/
def encMax : Int := 65535

/-- The sum `m` of R30: `b3 + 16*b2 + 256*b1 + (b0 mod 8)`. -/
def decMagnitude (q : Quad) : Int :=
  q.b3.toNat + 16 * q.b2.toNat + 256 * q.b1.toNat + q.b0.toNat % 8

/-- `dec` (R30): the magnitude, negated exactly when `b0` is a non-zero multiple of 8. -/
def dec (q : Quad) : Int :=
  if q.b0.toNat ≠ 0 ∧ q.b0.toNat % 8 = 0 then -decMagnitude q else decMagnitude q

/-- `enc` (R34) on the integer value of a word; `none` where the spec raises `EncodeRange`. -/
def enc (v : Int) : Option Quad :=
  if v < encMin ∨ v > encMax then none
  else
    some
      { b0 := if v < 0 then 8 else 0
        b1 := BitVec.ofNat 8 (v.natAbs / 256)
        b2 := 0
        b3 := BitVec.ofNat 8 (v.natAbs % 256) }

end Sys2Proof.Machine
end

