-- ==== Sys2Proof/Syntax.lean ====
section
/-! DEFINITION. The statements of the bytecode: opcodes, conditions, operands and the one inductive of instructions,
a constructor for each of the seventeen rows of the opcode table. -/

namespace Sys2Proof

/-- The six conditions (R66). -/
inductive Cond where
  | eq | ne | gt | ngt | lt | nlt
  deriving DecidableEq, Repr

/-- The seventeen opcodes, a closed list (R62). -/
inductive Opcode where
  | move | add | subtract | multiply | divide | modulo | bitwiseAnd | bitwiseOr | bitwiseXor
  | compare | branch | readInput | writeOutput | diskRead | diskWrite | nestedExecution | halt
  deriving DecidableEq, Repr

/-- A used operand slot (R61, R68). The payload is the integer the Number Codec decodes from its four bytes (R69).
A mode tag 4 to 255 is kept as it stands: it faults only when an executed statement resolves the slot (R72). -/
inductive Operand where
  /-- Mode 0, REGISTER: the payload is a register index. -/
  | register (index : Int)
  /-- Mode 1, REGISTER_VALUE: the payload is the index of the register that holds a RAM address. -/
  | registerValue (index : Int)
  /-- Mode 2, POINTER: the payload is a RAM address. -/
  | pointer (address : Int)
  /-- Mode 3, CONSTANT: the payload is the value. -/
  | constant (value : Int)
  /-- A mode tag 4 to 255. -/
  | invalid (tag : Byte)
  deriving DecidableEq, Repr

/-- A statement: a condition and the operand slots its opcode uses, in slot order (R64). The bytes of unused slots
have no effect (R65) and are not part of it. -/
inductive Instr where
  | move (c : Cond) (src dst : Operand)
  | add (c : Cond) (a b dst : Operand)
  | subtract (c : Cond) (a b dst : Operand)
  | multiply (c : Cond) (a b dst : Operand)
  | divide (c : Cond) (a b dst : Operand)
  | modulo (c : Cond) (a b dst : Operand)
  | bitwiseAnd (c : Cond) (a b dst : Operand)
  | bitwiseOr (c : Cond) (a b dst : Operand)
  | bitwiseXor (c : Cond) (a b dst : Operand)
  | compare (c : Cond) (a b : Operand)
  | branch (c : Cond) (target : Operand)
  | readInput (c : Cond) (dst : Operand)
  | writeOutput (c : Cond) (src : Operand)
  | diskRead (c : Cond) (offset dst : Operand)
  | diskWrite (c : Cond) (value offset : Operand)
  | nestedExecution (c : Cond) (offset length : Operand)
  | halt (c : Cond)
  deriving DecidableEq, Repr

/-- The condition of a statement; every statement has one (R60). -/
def Instr.cond : Instr → Cond
  | .move c _ _ | .add c _ _ _ | .subtract c _ _ _ | .multiply c _ _ _ | .divide c _ _ _ | .modulo c _ _ _
  | .bitwiseAnd c _ _ _ | .bitwiseOr c _ _ _ | .bitwiseXor c _ _ _ | .compare c _ _ | .branch c _
  | .readInput c _ | .writeOutput c _ | .diskRead c _ _ | .diskWrite c _ _ | .nestedExecution c _ _
  | .halt c => c

/-- The opcode of a statement. -/
def Instr.opcode : Instr → Opcode
  | .move _ _ _ => .move
  | .add _ _ _ _ => .add
  | .subtract _ _ _ _ => .subtract
  | .multiply _ _ _ _ => .multiply
  | .divide _ _ _ _ => .divide
  | .modulo _ _ _ _ => .modulo
  | .bitwiseAnd _ _ _ _ => .bitwiseAnd
  | .bitwiseOr _ _ _ _ => .bitwiseOr
  | .bitwiseXor _ _ _ _ => .bitwiseXor
  | .compare _ _ _ => .compare
  | .branch _ _ => .branch
  | .readInput _ _ => .readInput
  | .writeOutput _ _ => .writeOutput
  | .diskRead _ _ _ => .diskRead
  | .diskWrite _ _ _ => .diskWrite
  | .nestedExecution _ _ _ => .nestedExecution
  | .halt _ => .halt

/-- The operands a statement uses, in slot order from slot 0 (R64). -/
def Instr.operands : Instr → List Operand
  | .move _ x y | .compare _ x y | .diskRead _ x y | .diskWrite _ x y | .nestedExecution _ x y => [x, y]
  | .add _ a b d | .subtract _ a b d | .multiply _ a b d | .divide _ a b d | .modulo _ a b d
  | .bitwiseAnd _ a b d | .bitwiseOr _ a b d | .bitwiseXor _ a b d => [a, b, d]
  | .branch _ x | .readInput _ x | .writeOutput _ x => [x]
  | .halt _ => []

end Sys2Proof
end

