-- ==== Sys2Proof/WellFormed.lean ====
section
/-! DEFINITION. Which instructions the encoding of R60 to R69 can spell: a payload is in the range of the Number
Codec's decoder (R33) and an invalid mode tag is none of the four modes (R72). -/

namespace Sys2Proof

/-- A payload some four bytes decode to (R33). -/
def payloadOk (p : Int) : Bool := decide (Machine.decMin ≤ p) && decide (p ≤ Machine.decMax)

/-- An operand some five bytes spell. -/
def Operand.wellFormed : Operand → Bool
  | .register p | .registerValue p | .pointer p | .constant p => payloadOk p
  | .invalid tag => decide (4 ≤ tag.toNat)

/-- An instruction some statement spells: each used operand is well formed. -/
def Instr.wellFormed (i : Instr) : Bool := i.operands.all Operand.wellFormed

end Sys2Proof
end

