-- ==== Sys2Proof/Decode.lean ====
section
/-! DEFINITION. The encoding of statements (R60 to R75): the decoder, total on any bytes and rejecting by name, and the
encoder beside it. -/

namespace Sys2Proof

open Sys2Proof.Machine

/-- `LEN_WIDE = 2 + 3·5` (R63). -/
def lenWide : Nat := 17

/-- `LEN_NARROW = 2 + 1·5` (R63). -/
def lenNarrow : Nat := 7

/-- Why bytes do not spell a statement (R92 to R94). -/
inductive DecodeError where
  /-- The bytes end before the opcode and condition, or before the statement's length (R75). -/
  | truncated
  /-- The opcode byte is 0x11 to 0xFF (R70). -/
  | illegalOpcode (b : Byte)
  /-- The condition byte is 6 to 255 (R71). -/
  | illegalCondition (b : Byte)
  deriving DecidableEq, Repr

/-- The opcode table of R62, read by opcode byte. -/
def Opcode.ofByte (b : Byte) : Option Opcode :=
  match b.toNat with
  | 0x00 => some .move
  | 0x01 => some .add
  | 0x02 => some .subtract
  | 0x03 => some .multiply
  | 0x04 => some .divide
  | 0x05 => some .modulo
  | 0x06 => some .bitwiseAnd
  | 0x07 => some .bitwiseOr
  | 0x08 => some .bitwiseXor
  | 0x09 => some .compare
  | 0x0A => some .branch
  | 0x0B => some .readInput
  | 0x0C => some .writeOutput
  | 0x0D => some .diskRead
  | 0x0E => some .diskWrite
  | 0x0F => some .nestedExecution
  | 0x10 => some .halt
  | _ => none

/-- The opcode table of R62, read by instruction. -/
def Opcode.toByte : Opcode → Byte
  | .move => 0x00
  | .add => 0x01
  | .subtract => 0x02
  | .multiply => 0x03
  | .divide => 0x04
  | .modulo => 0x05
  | .bitwiseAnd => 0x06
  | .bitwiseOr => 0x07
  | .bitwiseXor => 0x08
  | .compare => 0x09
  | .branch => 0x0A
  | .readInput => 0x0B
  | .writeOutput => 0x0C
  | .diskRead => 0x0D
  | .diskWrite => 0x0E
  | .nestedExecution => 0x0F
  | .halt => 0x10

/-- `stmt_len(opcode)` (R63): a function of the opcode's category only. -/
def Opcode.length : Opcode → Nat
  | .move | .add | .subtract | .multiply | .divide | .modulo | .bitwiseAnd | .bitwiseOr | .bitwiseXor
  | .compare | .diskRead | .diskWrite | .nestedExecution => lenWide
  | .branch | .readInput | .writeOutput | .halt => lenNarrow

/-- The length in bytes of a statement (R63). -/
def Instr.length (i : Instr) : Nat := i.opcode.length

/-- The condition table of R66, read by condition byte. -/
def Cond.ofByte (b : Byte) : Option Cond :=
  match b.toNat with
  | 0 => some .eq
  | 1 => some .ne
  | 2 => some .gt
  | 3 => some .ngt
  | 4 => some .lt
  | 5 => some .nlt
  | _ => none

/-- The condition table of R66, read by condition. -/
def Cond.toByte : Cond → Byte
  | .eq => 0
  | .ne => 1
  | .gt => 2
  | .ngt => 3
  | .lt => 4
  | .nlt => 5

/-- A mode tag and the payload it selects a meaning for (R68, R69). -/
def Operand.ofTag (tag : Byte) (payload : Int) : Operand :=
  match tag.toNat with
  | 0 => .register payload
  | 1 => .registerValue payload
  | 2 => .pointer payload
  | 3 => .constant payload
  | _ => .invalid tag

/-- The payload bytes of slot `k` of the latched statement `st` (R61). -/
def payloadBytes (st : List Byte) (k : Nat) : Quad :=
  { b0 := st.getD (3 + 5 * k) 0
    b1 := st.getD (4 + 5 * k) 0
    b2 := st.getD (5 + 5 * k) 0
    b3 := st.getD (6 + 5 * k) 0 }

/-- Slot `k` of the latched statement `st`: the mode tag at `2 + 5k`, the payload after it (R61). -/
def decodeSlot (st : List Byte) (k : Nat) : Operand :=
  Operand.ofTag (st.getD (2 + 5 * k) 0) (dec (payloadBytes st k))

/-- The statement with a given opcode and condition over the latched bytes `st` (the slot table of R64). -/
def Opcode.instr (op : Opcode) (c : Cond) (st : List Byte) : Instr :=
  match op with
  | .move => .move c (decodeSlot st 0) (decodeSlot st 1)
  | .add => .add c (decodeSlot st 0) (decodeSlot st 1) (decodeSlot st 2)
  | .subtract => .subtract c (decodeSlot st 0) (decodeSlot st 1) (decodeSlot st 2)
  | .multiply => .multiply c (decodeSlot st 0) (decodeSlot st 1) (decodeSlot st 2)
  | .divide => .divide c (decodeSlot st 0) (decodeSlot st 1) (decodeSlot st 2)
  | .modulo => .modulo c (decodeSlot st 0) (decodeSlot st 1) (decodeSlot st 2)
  | .bitwiseAnd => .bitwiseAnd c (decodeSlot st 0) (decodeSlot st 1) (decodeSlot st 2)
  | .bitwiseOr => .bitwiseOr c (decodeSlot st 0) (decodeSlot st 1) (decodeSlot st 2)
  | .bitwiseXor => .bitwiseXor c (decodeSlot st 0) (decodeSlot st 1) (decodeSlot st 2)
  | .compare => .compare c (decodeSlot st 0) (decodeSlot st 1)
  | .branch => .branch c (decodeSlot st 0)
  | .readInput => .readInput c (decodeSlot st 0)
  | .writeOutput => .writeOutput c (decodeSlot st 0)
  | .diskRead => .diskRead c (decodeSlot st 0) (decodeSlot st 1)
  | .diskWrite => .diskWrite c (decodeSlot st 0) (decodeSlot st 1)
  | .nestedExecution => .nestedExecution c (decodeSlot st 0) (decodeSlot st 1)
  | .halt => .halt c

/-- The statement at the front of `bs`, the bytes of a stream from `pc` to its end (or its first seventeen bytes at
least). The checks stand in the order of R92 to R94: room for the header, the opcode, the length, the condition. -/
def decode (bs : List Byte) : Except DecodeError Instr :=
  match bs with
  | opByte :: condByte :: _ =>
    match Opcode.ofByte opByte with
    | none => .error (.illegalOpcode opByte)
    | some op =>
      if bs.length < op.length then .error .truncated
      else
        match Cond.ofByte condByte with
        | none => .error (.illegalCondition condByte)
        | some c => .ok (op.instr c bs)
  | _ => .error .truncated

/-- Four bytes that decode to a payload `v` of the decoder's range (R33 says there are some). Inside −65535 … 65535
they are the canonical bytes `enc v`, as R80 asks of an assembler; outside it `enc` has none, and the excess goes to
`b2` and, above 69615, to the low bits of `b0` (DESIGN CHOICE, notes/assumptions/10.md). -/
def encodePayload (v : Int) : Quad :=
  let m := v.natAbs
  let low := if 0 ≤ v then m - 69615 else 0
  let r := m - low
  if r ≤ 65535 then
    { b0 := if v < 0 then 8 else 0
      b1 := BitVec.ofNat 8 (r / 256)
      b2 := 0
      b3 := BitVec.ofNat 8 (r % 256) }
  else
    let e := r - 65280
    let b2 := (e - 240) / 16
    { b0 := if v < 0 then 8 else BitVec.ofNat 8 low
      b1 := 255
      b2 := BitVec.ofNat 8 b2
      b3 := BitVec.ofNat 8 (e - 16 * b2) }

/-- The mode tag of an operand (R68). -/
def Operand.tag : Operand → Byte
  | .register _ => 0
  | .registerValue _ => 1
  | .pointer _ => 2
  | .constant _ => 3
  | .invalid tag => tag

/-- The payload of an operand; zero where an invalid mode tag leaves it without a meaning. -/
def Operand.payload : Operand → Int
  | .register p | .registerValue p | .pointer p | .constant p => p
  | .invalid _ => 0

/-- The five bytes of an operand slot: the mode tag, then the payload (R61). -/
def encodeOperand (o : Operand) : List Byte :=
  let q := encodePayload o.payload
  [o.tag, q.b0, q.b1, q.b2, q.b3]

/-- The bytes of a statement: opcode, condition, the used slots in order, zeros in the unused slots (R60, R80). -/
def encode (i : Instr) : List Byte :=
  i.opcode.toByte :: i.cond.toByte ::
    (i.operands.flatMap encodeOperand ++ List.replicate (i.length - 2 - 5 * i.operands.length) 0)

/-- The low `n` bytes of `w`, the least significant first. -/
def wordBytes : Nat → Nat → List Byte
  | 0, _ => []
  | n + 1, w => BitVec.ofNat 8 w :: wordBytes n (w / 256)

/-- The bytes of the longest statement whose first `nbits` bits are those of `w` and whose other bits are 0; byte 0 of
the statement holds bits 7 to 0. -/
def tableBytes (nbits w : Nat) : List Byte := wordBytes lenWide (w % 2 ^ nbits)

/-- What the decoder reads from a statement given as a number, as the host asks for it. -/
def decodeTableWord (nbits w : Nat) : Option Instr :=
  match decode (tableBytes nbits w) with
  | .ok i => some i
  | .error _ => none

end Sys2Proof
end

