-- ==== Sys2Proof/Machine/Flags.lean ====
section
/-! DEFINITION. The Compare Flag: the value compare computes for it (R140) and the six conditions that test it (R96). -/

namespace Sys2Proof

/-- `holds(cond, c)` of R96: a signed comparison of the Compare Flag with 0. -/
def Cond.holds (c : Cond) (flag : Word) : Bool :=
  match c with
  | .eq => decide (flag.toInt = 0)
  | .ne => decide (flag.toInt ≠ 0)
  | .gt => decide (flag.toInt > 0)
  | .ngt => decide (flag.toInt ≤ 0)
  | .lt => decide (flag.toInt < 0)
  | .nlt => decide (flag.toInt ≥ 0)

/-- The flag compare writes: the exact difference, wrapped (R140, R142). -/
def Machine.compareFlag (a b : Word) : Word := Machine.wrap32 (a.toInt - b.toInt)

end Sys2Proof
end

