-- ==== Sys2Proof/Config.lean ====
section
/-! DEFINITION. What an implementation fixes (the configuration parameters of R5, with their defaults and
constraints) and the one free value the spec leaves open (the RAM contents at reset, R28). -/

namespace Sys2Proof

/-- The configuration parameters of R5; the defaults are those of the spec's decisions D2, D3 and D5. -/
structure Config where
  /-- `NREGS`, the number of registers. -/
  nregs : Nat := 16
  /-- `RAM_SIZE`, the number of bytes of RAM. -/
  ramSize : Nat := 65536
  /-- `MAX_DEPTH`, the largest depth a frame may have. -/
  maxDepth : Nat := 16
  deriving DecidableEq, Repr

/-- The largest size R5 allows for RAM, the Disk Buffer and the BIOS buffer. -/
def Config.sizeLimit : Nat := 2 ^ 31 - 1

/-- The constraints of R5 on the configuration parameters (`MAX_DEPTH ≥ 0` holds of every natural number). -/
def Config.wf (c : Config) : Bool :=
  decide (1 ≤ c.nregs) && decide (c.nregs ≤ 65536) && decide (c.ramSize ≤ Config.sizeLimit)

/-- FREE VALUE: the byte RAM holds at an address after the reset that began a run. R28: "unspecified: any byte,
chosen by the environment, fixed for the run", so it is a function of the run's number and the address and of
nothing else, and nothing here says what it is (notes/assumptions/1.md). -/
opaque Config.ramAtReset (run addr : Nat) : Byte

end Sys2Proof
end

