-- ==== Sys2Proof/Machine/State.lean ====
section
/-! DEFINITION. The machine state as plain data (the tuple of R27 and the run's parameters), the causes of the spec's
faults, the reasons a step of the model can stop, and the state after reset (R28). -/

namespace Sys2Proof.Machine

/-- The space a statement stream lies in (R16). -/
inductive Space where
  | bios | ram
  deriving DecidableEq, Repr

/-- One activation of the engine over one stream (R17): the stream `(space, base, len)` of R16 and the stream offset
`pc` of the current or next statement (R15). -/
structure Frame where
  space : Space
  base : Nat
  len : Nat
  pc : Nat
  deriving DecidableEq, Repr

/-- Why the machine halted (R18): a halt statement at depth 0, or the end of the top-level stream. -/
inductive HaltReason where
  | haltOp | exhausted
  deriving DecidableEq, Repr

/-- The machine's status, an output to the host (R18). -/
inductive Status where
  | running
  | halted (reason : HaltReason)
  | faulted
  deriving DecidableEq, Repr

/-- The thirteen faults of R180 with what each records. They are the spec's own terminal exceptions, taken by
`State.raise`; they are not the outcome `fault` of a step. -/
inductive Cause where
  | illegalOpcode (opcode : Byte)
  | illegalCondition (condition : Byte)
  | truncatedStatement (pc : Nat)
  | invalidMode (tag : Byte)
  | badRegister (index : Int)
  | writeToConstant (slot : Nat)
  | ramOutOfRange (address : Int)
  | diskOutOfRange (offset : Int)
  | encodeRange (value : Int)
  | divideByZero (dividend : Int)
  | branchOutOfRange (target : Int)
  | badRange (length : Int)
  | nestDepthExceeded (depth : Nat)
  deriving DecidableEq, Repr

/-- The fault record (R19): the code and info of R180 and where the faulting statement stands. -/
structure FaultRecord where
  code : Nat
  info : Int
  depth : Nat
  pc : Nat
  space : Space
  base : Nat
  deriving DecidableEq, Repr

/-- Why a step of the model stops without a next state. Every error the spec names is a next state with status
`faulted` instead; this is left for a state the spec rules out. -/
inductive Fault where
  /-- Raised by `step` when the current frame's stream reaches outside its space, so that a byte to fetch has no
  address that exists. R16 and R166 rule such a frame out, and no step makes one from a well-formed state
  (`State.Inv`). Safe: the model stops where the spec describes no machine. -/
  | fetchOutsideSpace (space : Space) (address : Nat)
  deriving DecidableEq, Repr

/-- Why an instruction has no meaning. -/
inductive Refusal where
  /-- Raised by `exec` for an instruction that has no meaning yet; no arm does so. Safe: nothing is claimed. -/
  | notModelled (mnemonic : String)
  deriving DecidableEq, Repr

/-- RAM as the bytes written since reset: pairs of address and byte in one canonical form (`Memory.wf`). -/
abbrev Memory := List Host.Cell

/-- The machine state of R27, and with it the parameters of R5 that a step reads. The frame stack of R17, which is
never empty, is its last element `current` and the suspended frames below it, innermost first (DEDUCED,
notes/assumptions/12.md). That the parameters stand here is a DESIGN CHOICE (notes/assumptions/2.md). -/
structure State where
  /-- `x[0 .. NREGS-1]` (R10); `NREGS` is the list's length. -/
  regs : List Word
  /-- The Compare Flag (R13). -/
  flag : Word
  /-- `RAM` (R20): the bytes written since reset; an unlisted byte still holds its reset contents. -/
  ram : Memory
  /-- `DISK[0 .. DISK_SIZE-1]` (R21); `DISK_SIZE` is the list's length. -/
  disk : List Byte
  /-- The current frame, the last of `frames` (R17). -/
  current : Frame
  /-- The suspended frames, the innermost caller first, the top-level frame last (R17). -/
  callers : List Frame
  /-- `status` (R18). -/
  status : Status
  /-- The fault record (R19); `none` while no fault is recorded (R28; DEDUCED, notes/assumptions/13.md). -/
  fault : Option FaultRecord
  /-- The console input not yet consumed (R23). -/
  cin : List Byte
  /-- The console output so far, oldest byte first (R24). -/
  cout : List Byte
  /-- Parameter: `BIOS[0 .. BIOS_LEN-1]` (R22); `BIOS_LEN` is the list's length. -/
  bios : List Byte
  /-- Parameter: `RAM_SIZE` (R5). -/
  ramSize : Nat
  /-- Parameter: `MAX_DEPTH` (R5). -/
  maxDepth : Nat
  /-- The model's own field: the number of this run, which selects the RAM reset contents (DESIGN CHOICE,
  notes/assumptions/1.md). -/
  run : Nat
  deriving DecidableEq, Repr

/-- The frame reset creates over the BIOS buffer (R28). -/
def Frame.topLevel (biosLen : Nat) : Frame := { space := .bios, base := 0, len := biosLen, pc := 0 }

/-- The state right after reset with given parameters (R28, R210): a configuration, the launch parameters of R5 (the
BIOS bytes, the disk image, the console input) and the number of the run. -/
def State.launch (cfg : Config) (run : Nat) (bios disk cin : List Byte) : State :=
  { regs := List.replicate cfg.nregs 0
    flag := 0
    ram := []
    disk := disk
    current := Frame.topLevel bios.length
    callers := []
    status := .running
    fault := none
    cin := cin
    cout := []
    bios := bios
    ramSize := cfg.ramSize
    maxDepth := cfg.maxDepth
    run := run }

/-- The machine right after reset in the default configuration, with nothing launched: an empty BIOS buffer, an empty
Disk Buffer and no console input (notes/assumptions/3.md). -/
def State.reset : State := State.launch { } 0 [] [] []

end Sys2Proof.Machine
end

