-- ==== Sys2Proof/Machine/Ops.lean ====
section
/-! DEFINITION. The named operations over the state: RAM, registers, disk, console, frames, taking a fault, the
condition every statement tests, and fetching a statement's bytes. -/

namespace Sys2Proof.Machine

/-- The outcome of a step or a meaning. -/
abbrev StepOutcome := Host.Outcome State Fault Refusal

/-- What an instruction body does: complete with a state, or raise a cause before it changed anything (R98). -/
abbrev Body := Except Cause State

/-! ### RAM bytes -/

/-- The byte written at an address since reset, if any. -/
def Memory.get (m : Memory) (a : Nat) : Option Byte :=
  match m with
  | [] => none
  | (k, b) :: rest => if a = k then some b else Memory.get rest a

/-- Memory with byte `b` written at address `a`, in canonical form again. -/
def Memory.set (m : Memory) (a : Nat) (b : Byte) : Memory :=
  match m with
  | [] => [(a, b)]
  | (k, c) :: rest =>
    if a < k then (a, b) :: (k, c) :: rest
    else if a = k then (a, b) :: rest
    else (k, c) :: Memory.set rest a b

/-- The canonical form: addresses strictly rising. An unlisted address stands for "not written since reset", which no
entry can equal, so memories with the same written bytes are the same list. -/
def Memory.wf (m : Memory) : Bool :=
  match m with
  | [] => true
  | (k, _) :: rest => rest.all (fun cell => decide (k < cell.1)) && Memory.wf rest

/-- `RAM[a]`: the byte last written at `a`, or its reset contents (R20, R28, R51). -/
def State.ramByte (s : State) (a : Nat) : Byte := (s.ram.get a).getD (Config.ramAtReset s.run a)

/-- `RAM[a] <- b`. -/
def State.setRamByte (s : State) (a : Nat) (b : Byte) : State := { s with ram := s.ram.set a b }

/-! ### Numbers in RAM -/

/-- The bounds check of R40, R41 and R160 on `n` bytes from address `a`; the sum is computed in `Int` (R101). -/
def State.ramSpan (s : State) (a n : Int) : Except Cause Nat :=
  if a < 0 ∨ a + n > s.ramSize then .error (.ramOutOfRange a) else .ok a.toNat

/-- `RAM[a] … RAM[a+3]` (R37, R40). -/
def State.ramQuad (s : State) (a : Nat) : Quad :=
  { b0 := s.ramByte a, b1 := s.ramByte (a + 1), b2 := s.ramByte (a + 2), b3 := s.ramByte (a + 3) }

/-- `RAM[a+i] <- bs[i]` for i = 0 … 3 (R41). -/
def State.setRamQuad (s : State) (a : Nat) (q : Quad) : State :=
  (((s.setRamByte a q.b0).setRamByte (a + 1) q.b1).setRamByte (a + 2) q.b2).setRamByte (a + 3) q.b3

/-- `NumRead(a)` as a word, the bounds checked before (R42, R102). -/
def State.numRead (s : State) (a : Nat) : Word := wrap32 (dec (s.ramQuad a))

/-- `NumWrite(a, v)`, the bounds checked before (R43, R105). -/
def State.numWrite (s : State) (a : Nat) (v : Word) : Body :=
  match enc v.toInt with
  | none => .error (.encodeRange v.toInt)
  | some q => .ok (s.setRamQuad a q)

/-! ### Registers and the flag -/

/-- `NREGS` (R5). -/
def State.nregs (s : State) : Nat := s.regs.length

/-- `x[i]` (R10); 0 for an index the resolver never gives (DESIGN CHOICE, notes/assumptions/14.md). -/
def State.reg (s : State) (i : Nat) : Word := s.regs.getD i 0

/-- `x[i] <- v` (R10). -/
def State.setReg (s : State) (i : Nat) (v : Word) : State := { s with regs := s.regs.set i v }

/-- `flag <- v` (R13). -/
def State.setFlag (s : State) (v : Word) : State := { s with flag := v }

/-! ### The disk -/

/-- The bounds check of R44 and R45 on the four bytes at offset `o`. -/
def State.diskSpan (s : State) (o : Int) : Except Cause Nat :=
  if o < 0 ∨ o + 4 > s.disk.length then .error (.diskOutOfRange o) else .ok o.toNat

/-- `DISK[a]` (R21); 0 for an offset the checks never let through (DESIGN CHOICE, notes/assumptions/14.md). -/
def State.diskByte (s : State) (a : Nat) : Byte := s.disk.getD a 0

/-- `dec` of `DISK[a] … DISK[a+3]` as a word, the bounds checked before (R44, R152). -/
def State.diskNumRead (s : State) (a : Nat) : Word :=
  wrap32 (dec
    { b0 := s.diskByte a, b1 := s.diskByte (a + 1), b2 := s.diskByte (a + 2), b3 := s.diskByte (a + 3) })

/-- `DiskWrite(a, 4, enc(v))`, the bounds checked before (R45, R153). -/
def State.diskNumWrite (s : State) (a : Nat) (v : Word) : Body :=
  match enc v.toInt with
  | none => .error (.encodeRange v.toInt)
  | some q =>
    .ok { s with disk := (((s.disk.set a q.b0).set (a + 1) q.b1).set (a + 2) q.b2).set (a + 3) q.b3 }

/-! ### The console -/

/-- `ConsoleIn()` (R23): the first input byte and the state without it, `none` while the input is empty. -/
def State.consoleIn (s : State) : Option (Byte × State) :=
  match s.cin with
  | [] => none
  | b :: rest => some (b, { s with cin := rest })

/-- `ConsoleOut(b)` (R24). -/
def State.consoleOut (s : State) (b : Byte) : State := { s with cout := s.cout ++ [b] }

/-! ### Frames -/

/-- The frame stack as R17 lists it: the top-level frame first, the current frame last. -/
def State.frames (s : State) : List Frame := s.callers.reverse ++ [s.current]

/-- `depth = |frames| − 1` (R17). -/
def State.depth (s : State) : Nat := s.callers.length

/-- `pc` of the current frame (R15). -/
def State.pc (s : State) : Nat := s.current.pc

/-- `len` of the current frame (R16). -/
def State.len (s : State) : Nat := s.current.len

/-- `pc <- t` (R15). -/
def State.setPc (s : State) (t : Nat) : State := { s with current := { s.current with pc := t } }

/-- `pc <- next` for a statement of length `n` (R93, R99). -/
def State.advance (s : State) (n : Nat) : State := s.setPc (s.pc + n)

/-- Push the frame `(RAM, o, n, 0)`, which becomes the current frame (R160). -/
def State.pushFrame (s : State) (o n : Nat) : State :=
  { s with current := { space := .ram, base := o, len := n, pc := 0 }, callers := s.current :: s.callers }

/-- The end of the current frame (R91, R161): at depth 0 the machine halts and its frame stays; deeper, the frame is
popped and the caller continues at its own `pc`. -/
def State.endFrame (s : State) (why : HaltReason) : State :=
  match s.callers with
  | [] => { s with status := .halted why }
  | caller :: rest => { s with current := caller, callers := rest }

/-! ### Taking a fault

A fault is the core's one exception (R184). There is no return from it (R185): only reset leaves `faulted`. -/

/-- The code of a cause (the table of R180). -/
def Cause.code : Cause → Nat
  | .illegalOpcode _ => 1
  | .illegalCondition _ => 2
  | .truncatedStatement _ => 3
  | .invalidMode _ => 4
  | .badRegister _ => 5
  | .writeToConstant _ => 6
  | .ramOutOfRange _ => 7
  | .diskOutOfRange _ => 8
  | .encodeRange _ => 9
  | .divideByZero _ => 10
  | .branchOutOfRange _ => 11
  | .badRange _ => 12
  | .nestDepthExceeded _ => 13

/-- The info a cause records (the table of R180). -/
def Cause.info : Cause → Int
  | .illegalOpcode b | .illegalCondition b | .invalidMode b => b.toNat
  | .truncatedStatement n | .writeToConstant n | .nestDepthExceeded n => n
  | .badRegister v | .ramOutOfRange v | .diskOutOfRange v | .encodeRange v | .divideByZero v
  | .branchOutOfRange v | .badRange v => v

/-- `raise` (R184): write the fault record from the current frame, set the status, change nothing else. -/
def State.raise (s : State) (e : Cause) : State :=
  { s with
    status := .faulted
    fault :=
      some
        { code := e.code
          info := e.info
          depth := s.depth
          pc := s.current.pc
          space := s.current.space
          base := s.current.base } }

/-! ### The conditional statement -/

/-- What every statement of length `n` has in common (R97, R98, R184): where its condition does not hold it is skipped,
else its body completes, or raises from the state the statement began in. -/
def State.conditional (s : State) (c : Cond) (n : Nat) (body : Body) : StepOutcome :=
  if c.holds s.flag then
    match body with
    | .ok t => .next t
    | .error e => .next (s.raise e)
  else .next (s.advance n)

/-! ### Fetching a statement's bytes -/

/-- The byte at address `a` of a space, `none` where the space has no such address. -/
def State.spaceByte (s : State) (sp : Space) (a : Nat) : Option Byte :=
  match sp with
  | .bios => s.bios[a]?
  | .ram => if a < s.ramSize then some (s.ramByte a) else none

/-- `S[i]`, the byte at offset `i` of the current stream (R16). -/
def State.streamByte (s : State) (i : Nat) : Option Byte := s.spaceByte s.current.space (s.current.base + i)

/-- The `n` stream bytes from offset `i`, in ascending order (R38), or the first address that does not exist. -/
def State.streamBytes (s : State) (n i : Nat) : Except Fault (List Byte) :=
  match n with
  | 0 => .ok []
  | n + 1 =>
    match s.streamByte i with
    | none => .error (.fetchOutsideSpace s.current.space (s.current.base + i))
    | some b =>
      match s.streamBytes n (i + 1) with
      | .ok bs => .ok (b :: bs)
      | .error e => .error e

/-- The bytes the decoder needs: from `pc` to the end of the stream, at most the longest statement (R92 to R95). They
are read once, before the statement changes anything (R54). DEDUCED, notes/assumptions/6.md. -/
def State.fetchWindow (s : State) : Except Fault (List Byte) :=
  s.streamBytes (min lenWide (s.len - s.pc)) s.pc

/-- The cause a decode error raises for the statement at the current `pc` (R92 to R94). -/
def State.decodeCause (s : State) (e : DecodeError) : Cause :=
  match e with
  | .truncated => .truncatedStatement s.pc
  | .illegalOpcode b => .illegalOpcode b
  | .illegalCondition b => .illegalCondition b

/-- What `step` does with the decoder's answer `d`, `run` being what the decoded instruction does: run it, or raise. -/
def State.afterDecode (s : State) (d : Except DecodeError Instr) (run : Instr → StepOutcome) : StepOutcome :=
  match d with
  | .ok i => run i
  | .error e => .next (s.raise (s.decodeCause e))

end Sys2Proof.Machine
end

