-- ==== Sys2Proof/Machine/Operands.lean ====
section
/-! DEFINITION. The Addressing Resolver (R100 to R105): every operand form, read and written. -/

namespace Sys2Proof.Machine

/-- A location an operand resolves to (R100). -/
inductive Location where
  | reg (i : Nat)
  | ram (a : Nat)
  | const (v : Word)
  deriving DecidableEq, Repr

/-- The register-index check of R101. -/
def State.regIndex (s : State) (p : Int) : Except Cause Nat :=
  if p < 0 ∨ p ≥ s.nregs then .error (.badRegister p) else .ok p.toNat

/-- `Resolve` (R101) of an operand slot. -/
def State.resolve (s : State) (o : Operand) : Except Cause Location :=
  match o with
  | .register p => do
    let i ← s.regIndex p
    .ok (.reg i)
  | .registerValue p => do
    let i ← s.regIndex p
    let a ← s.ramSpan (s.reg i).toInt 4
    .ok (.ram a)
  | .pointer p => do
    let a ← s.ramSpan p 4
    .ok (.ram a)
  | .constant p => .ok (.const (wrap32 p))
  | .invalid tag => .error (.invalidMode tag)

/-- `Load` (R102). -/
def State.load (s : State) (l : Location) : Word :=
  match l with
  | .reg i => s.reg i
  | .ram a => s.numRead a
  | .const v => v

/-- `ReadOperand` (R103). -/
def State.readOperand (s : State) (o : Operand) : Except Cause Word := do
  let l ← s.resolve o
  .ok (s.load l)

/-- `ResolveDest` of slot `k` (R104). -/
def State.resolveDest (s : State) (k : Nat) (o : Operand) : Except Cause Location := do
  let l ← s.resolve o
  match l with
  | .const _ => .error (.writeToConstant k)
  | .reg i => .ok (.reg i)
  | .ram a => .ok (.ram a)

/-- `Store` (R105). A constant is no store location (`ResolveDest` never gives one): nothing is written (DESIGN CHOICE,
notes/assumptions/14.md). -/
def State.store (s : State) (l : Location) (v : Word) : Body :=
  match l with
  | .reg i => .ok (s.setReg i v)
  | .ram a => s.numWrite a v
  | .const _ => .ok s

end Sys2Proof.Machine
end

