-- ==== Sys2Proof/Machine/CompareBranch.lean ====
section
/-! DEFINITION. compare and branch (R140 to R144). -/

namespace Sys2Proof.Machine

/-- The body of compare (R140). -/
def State.compareBody (s : State) (a b : Operand) : Body := do
  let va ← s.readOperand a
  let vb ← s.readOperand b
  .ok ((s.setFlag (compareFlag va vb)).advance lenWide)

/-- The range check and jump of branch (R141): a target is an offset of the current stream, its end included. -/
def State.branchTo (s : State) (t : Int) : Body :=
  if t < 0 ∨ t > s.len then .error (.branchOutOfRange t) else .ok (s.setPc t.toNat)

/-- The body of branch (R141). -/
def State.branchBody (s : State) (target : Operand) : Body := do
  let t ← s.readOperand target
  s.branchTo t.toInt

/-- compare (R140). -/
def execCompare (c : Cond) (a b : Operand) (s : State) : StepOutcome :=
  s.conditional c lenWide (s.compareBody a b)

/-- branch (R141). -/
def execBranch (c : Cond) (target : Operand) (s : State) : StepOutcome :=
  s.conditional c lenNarrow (s.branchBody target)

end Sys2Proof.Machine
end

