-- ==== Sys2Proof/Machine/ConsoleDisk.lean ====
section
/-! DEFINITION. read-input, write-output, disk-read and disk-write (R150 to R155). -/

namespace Sys2Proof.Machine

/-- The body of read-input (R150). With no input the engine waits: the state stays as it is, the statement is fetched
again at the next step, and only the environment can end the wait (R154; notes/assumptions/4.md). -/
def State.readInputBody (s : State) (dst : Operand) : Body := do
  let l ← s.resolveDest 0 dst
  match s.consoleIn with
  | none => .ok s
  | some (b, s') => do
    let t ← s'.store l (byteToWord b)
    .ok (t.advance lenNarrow)

/-- The body of write-output (R151). -/
def State.writeOutputBody (s : State) (src : Operand) : Body := do
  let v ← s.readOperand src
  .ok ((s.consoleOut (lowByte v)).advance lenNarrow)

/-- The body of disk-read (R152). -/
def State.diskReadBody (s : State) (offset dst : Operand) : Body := do
  let o ← s.readOperand offset
  let a ← s.diskSpan o.toInt
  let v := s.diskNumRead a
  let l ← s.resolveDest 1 dst
  let t ← s.store l v
  .ok (t.advance lenWide)

/-- The body of disk-write (R153). -/
def State.diskWriteBody (s : State) (value offset : Operand) : Body := do
  let v ← s.readOperand value
  let o ← s.readOperand offset
  let a ← s.diskSpan o.toInt
  let t ← s.diskNumWrite a v
  .ok (t.advance lenWide)

/-- read-input (R150). -/
def execReadInput (c : Cond) (dst : Operand) (s : State) : StepOutcome :=
  s.conditional c lenNarrow (s.readInputBody dst)

/-- write-output (R151). -/
def execWriteOutput (c : Cond) (src : Operand) (s : State) : StepOutcome :=
  s.conditional c lenNarrow (s.writeOutputBody src)

/-- disk-read (R152). -/
def execDiskRead (c : Cond) (offset dst : Operand) (s : State) : StepOutcome :=
  s.conditional c lenWide (s.diskReadBody offset dst)

/-- disk-write (R153). -/
def execDiskWrite (c : Cond) (value offset : Operand) (s : State) : StepOutcome :=
  s.conditional c lenWide (s.diskWriteBody value offset)

end Sys2Proof.Machine
end

