-- ==== Sys2Proof/Machine/MoveArith.lean ====
section
/-! DEFINITION. move and the eight arithmetic and logical instructions (R120 to R133). -/

namespace Sys2Proof.Machine

/-! ### The operations `OP(a, b)` -/

/-- `wrap32(a + b)` (R121). -/
def aluAdd (a b : Word) : Except Cause Word := .ok (wrap32 (a.toInt + b.toInt))

/-- `wrap32(a − b)` (R122). -/
def aluSubtract (a b : Word) : Except Cause Word := .ok (wrap32 (a.toInt - b.toInt))

/-- `wrap32(a · b)` (R123). -/
def aluMultiply (a b : Word) : Except Cause Word := .ok (wrap32 (a.toInt * b.toInt))

/-- `wrap32(a tdiv b)`, the quotient rounded toward zero (R124, R131). -/
def aluDivide (a b : Word) : Except Cause Word :=
  if b.toInt = 0 then .error (.divideByZero a.toInt) else .ok (wrap32 (a.toInt.tdiv b.toInt))

/-- `a − (a tdiv b) · b`, with the sign of the dividend (R125, R131). -/
def aluModulo (a b : Word) : Except Cause Word :=
  if b.toInt = 0 then .error (.divideByZero a.toInt)
  else .ok (wrap32 (a.toInt - a.toInt.tdiv b.toInt * b.toInt))

/-- Bit by bit `and` of the two's complement patterns (R126, R132). -/
def aluAnd (a b : Word) : Except Cause Word := .ok (a &&& b)

/-- Bit by bit `or` of the two's complement patterns (R127, R132). -/
def aluOr (a b : Word) : Except Cause Word := .ok (a ||| b)

/-- Bit by bit `xor` of the two's complement patterns (R128, R132). -/
def aluXor (a b : Word) : Except Cause Word := .ok (a ^^^ b)

/-! ### The bodies -/

/-- The template of R129, in its order: both sources, the operation, the destination, the store. -/
def State.binaryBody (s : State) (op : Word → Word → Except Cause Word) (a b dst : Operand) : Body := do
  let va ← s.readOperand a
  let vb ← s.readOperand b
  let r ← op va vb
  let l ← s.resolveDest 2 dst
  let t ← s.store l r
  .ok (t.advance lenWide)

/-- The body of move (R120). -/
def State.moveBody (s : State) (src dst : Operand) : Body := do
  let v ← s.readOperand src
  let l ← s.resolveDest 1 dst
  let t ← s.store l v
  .ok (t.advance lenWide)

/-! ### The meanings -/

/-- move (R120). -/
def execMove (c : Cond) (src dst : Operand) (s : State) : StepOutcome :=
  s.conditional c lenWide (s.moveBody src dst)

/-- add (R121). -/
def execAdd (c : Cond) (a b dst : Operand) (s : State) : StepOutcome :=
  s.conditional c lenWide (s.binaryBody aluAdd a b dst)

/-- subtract (R122). -/
def execSubtract (c : Cond) (a b dst : Operand) (s : State) : StepOutcome :=
  s.conditional c lenWide (s.binaryBody aluSubtract a b dst)

/-- multiply (R123). -/
def execMultiply (c : Cond) (a b dst : Operand) (s : State) : StepOutcome :=
  s.conditional c lenWide (s.binaryBody aluMultiply a b dst)

/-- divide (R124). -/
def execDivide (c : Cond) (a b dst : Operand) (s : State) : StepOutcome :=
  s.conditional c lenWide (s.binaryBody aluDivide a b dst)

/-- modulo (R125). -/
def execModulo (c : Cond) (a b dst : Operand) (s : State) : StepOutcome :=
  s.conditional c lenWide (s.binaryBody aluModulo a b dst)

/-- bitwise-and (R126). -/
def execBitwiseAnd (c : Cond) (a b dst : Operand) (s : State) : StepOutcome :=
  s.conditional c lenWide (s.binaryBody aluAnd a b dst)

/-- bitwise-or (R127). -/
def execBitwiseOr (c : Cond) (a b dst : Operand) (s : State) : StepOutcome :=
  s.conditional c lenWide (s.binaryBody aluOr a b dst)

/-- bitwise-xor (R128). -/
def execBitwiseXor (c : Cond) (a b dst : Operand) (s : State) : StepOutcome :=
  s.conditional c lenWide (s.binaryBody aluXor a b dst)

end Sys2Proof.Machine
end

