-- ==== Sys2Proof/Machine/NestedHalt.lean ====
section
/-! DEFINITION. nested-execution and halt (R160 to R168): the call and the return. -/

namespace Sys2Proof.Machine

/-- The call of R160 on the values read: length 0 first (R165), then the length's sign, the range and the depth. The
caller's `pc` is advanced before the frame is pushed. -/
def State.call (s : State) (o n : Int) : Body :=
  if n = 0 then .ok (s.advance lenWide)
  else if n < 0 then .error (.badRange n)
  else do
    let base ← s.ramSpan o n
    if s.depth + 1 > s.maxDepth then .error (.nestDepthExceeded (s.depth + 1))
    else .ok ((s.advance lenWide).pushFrame base n.toNat)

/-- The body of nested-execution (R160). -/
def State.nestedExecutionBody (s : State) (offset length : Operand) : Body := do
  let o ← s.readOperand offset
  let n ← s.readOperand length
  s.call o.toInt n.toInt

/-- nested-execution (R160). -/
def execNestedExecution (c : Cond) (offset length : Operand) (s : State) : StepOutcome :=
  s.conditional c lenWide (s.nestedExecutionBody offset length)

/-- halt (R161). -/
def execHalt (c : Cond) (s : State) : StepOutcome := s.conditional c lenNarrow (.ok (s.endFrame .haltOp))

end Sys2Proof.Machine
end

