-- ==== Sys2Proof/Machine/Dispatch.lean ====
section
/-! DEFINITION. exec: one arm for each constructor of Instr, each a direct call of that instruction's meaning (R98). -/

namespace Sys2Proof.Machine

def exec (i : Instr) (s : State) : Host.Outcome State Fault Refusal :=
  match i with
  | .move c src dst => Sys2Proof.Machine.execMove c src dst s
  | .add c a b dst => Sys2Proof.Machine.execAdd c a b dst s
  | .subtract c a b dst => Sys2Proof.Machine.execSubtract c a b dst s
  | .multiply c a b dst => Sys2Proof.Machine.execMultiply c a b dst s
  | .divide c a b dst => Sys2Proof.Machine.execDivide c a b dst s
  | .modulo c a b dst => Sys2Proof.Machine.execModulo c a b dst s
  | .bitwiseAnd c a b dst => Sys2Proof.Machine.execBitwiseAnd c a b dst s
  | .bitwiseOr c a b dst => Sys2Proof.Machine.execBitwiseOr c a b dst s
  | .bitwiseXor c a b dst => Sys2Proof.Machine.execBitwiseXor c a b dst s
  | .compare c a b => Sys2Proof.Machine.execCompare c a b s
  | .branch c target => Sys2Proof.Machine.execBranch c target s
  | .readInput c dst => Sys2Proof.Machine.execReadInput c dst s
  | .writeOutput c src => Sys2Proof.Machine.execWriteOutput c src s
  | .diskRead c offset dst => Sys2Proof.Machine.execDiskRead c offset dst s
  | .diskWrite c value offset => Sys2Proof.Machine.execDiskWrite c value offset s
  | .nestedExecution c offset length => Sys2Proof.Machine.execNestedExecution c offset length s
  | .halt c => Sys2Proof.Machine.execHalt c s

end Sys2Proof.Machine
end

