-- ==== Sys2Proof/Machine/Step.lean ====
section
/-! DEFINITION. One step of the engine (R90), and placing an instruction where the next step fetches it. -/

namespace Sys2Proof.Machine

/-- One step (R90 to R99). While `status` is `Running`: the end of an exhausted frame (R91), else the statement at
`pc`, fetched, decoded and run. In any other status the engine takes no step: the state stays as it is until reset
(R162, R185; notes/assumptions/4.md). -/
def step (s : State) : Host.Outcome State Fault Refusal :=
  match s.status with
  | .running =>
    if s.pc = s.len then .next (s.endFrame .exhausted)
    else
      match s.fetchWindow with
      | .ok bytes => s.afterDecode (decode bytes) (fun i => exec i s)
      | .error e => .fault e
  | _ => .next s

/-- `s` with the statement whose bytes are `tableBytes nbits w` loaded as the BIOS program of a running machine, so
that the next step fetches and runs exactly it: the load stands for the host's at reset (R214), which places a
program's bytes and length and starts the top-level frame at offset 0. -/
def State.withFetchWord (s : State) (nbits w : Nat) : State :=
  { s with
    bios := tableBytes nbits w
    current := Frame.topLevel (tableBytes nbits w).length
    callers := []
    status := .running
    fault := none }

end Sys2Proof.Machine
end

