-- ==== Sys2Proof/Machine/Environment.lean ====
section
/-! DEFINITION. What the host may do to the machine (R210, R214, R216). These are not steps of the engine: a run is
the engine's steps with such events between them. -/

namespace Sys2Proof.Machine

/-- The environment appends bytes to the console input (R23, R216). -/
def State.supplyInput (s : State) (bytes : List Byte) : State := { s with cin := s.cin ++ bytes }

/-- The host resets the machine with new launch parameters (R210). Nothing survives inside the core; the
configuration is the machine's, and the RAM contents are those of a new run (DESIGN CHOICE, notes/assumptions/15.md). -/
def State.hostReset (s : State) (bios disk cin : List Byte) : State :=
  State.launch { nregs := s.regs.length, ramSize := s.ramSize, maxDepth := s.maxDepth } (s.run + 1) bios disk cin

end Sys2Proof.Machine
end

