-- ==== Sys2Proof/Safety.lean ====
section
/-! DEFINITION. The well-formed states of the machine, how a run ends (R217), and which states a run reaches. -/

namespace Sys2Proof.Machine

/-- The configuration of a state (R5). -/
def State.config (s : State) : Config := { nregs := s.nregs, ramSize := s.ramSize, maxDepth := s.maxDepth }

/-- The sizes a run may launch with (R5). -/
def launchOk (bios disk : List Byte) : Bool :=
  decide (bios.length ≤ Config.sizeLimit) && decide (disk.length ≤ Config.sizeLimit)

/-- The `pc` of a frame lies in its stream or at its end (R15). -/
def Frame.pcOk (f : Frame) : Bool := decide (f.pc ≤ f.len)

/-- The top-level frame: the whole BIOS buffer (R16, R17). -/
def Frame.topLevelOk (f : Frame) (biosLen : Nat) : Bool :=
  decide (f.space = .bios) && decide (f.base = 0) && decide (f.len = biosLen) && f.pcOk

/-- A nested frame: a non-empty range of RAM (R16). -/
def Frame.nestedOk (f : Frame) (ramSize : Nat) : Bool :=
  decide (f.space = .ram) && decide (1 ≤ f.len) && decide (f.base + f.len ≤ ramSize) && f.pcOk

/-- The frames, innermost first: nested frames over RAM above one top-level frame (R17). -/
def framesOk (biosLen ramSize : Nat) (fs : List Frame) : Bool :=
  match fs with
  | [] => false
  | [f] => f.topLevelOk biosLen
  | f :: g :: rest => f.nestedOk ramSize && framesOk biosLen ramSize (g :: rest)

/-- The fault record names a code of R180 and the frame the machine faulted in (R19, R184). -/
def State.recordOk (s : State) (r : FaultRecord) : Bool :=
  decide (1 ≤ r.code) && decide (r.code ≤ 13) && decide (r.depth = s.depth) && decide (r.pc = s.current.pc)
    && decide (r.space = s.current.space) && decide (r.base = s.current.base)

/-- A fault is recorded exactly in status `Faulted` (R19, R28). -/
def State.faultOk (s : State) : Bool :=
  match s.fault with
  | none => decide (s.status ≠ .faulted)
  | some r => decide (s.status = .faulted) && s.recordOk r

/-- The well-formed states: the configuration and sizes in the ranges of R5, RAM in its canonical form and inside its
size (R20), a proper frame stack no deeper than `MAX_DEPTH` (R16, R17), and a fault record exactly when faulted. A
machine that halted did so in its top-level frame (R91, R161). -/
def State.Inv (s : State) : Bool :=
  s.config.wf
    && launchOk s.bios s.disk
    && (s.ram.wf && s.ram.all (fun cell => decide (cell.1 < s.ramSize)))
    && framesOk s.bios.length s.ramSize (s.current :: s.callers)
    && decide (s.depth ≤ s.maxDepth)
    && s.faultOk
    && (match s.status with
        | .halted _ => decide (s.callers = [])
        | _ => true)

/-- The run ended normally (R162, R217). -/
def State.endedNormally (s : State) : Bool :=
  match s.status with
  | .halted _ => true
  | _ => false

/-- The run ended abnormally (R217). -/
def State.endedAbnormally (s : State) : Bool := decide (s.status = .faulted)

/-- The run has not ended (R217). -/
def State.notEnded (s : State) : Bool := decide (s.status = .running)

/-- The engine waits in a read-input (R154, R203): it runs, and its next statement is a read-input whose condition
holds and whose destination resolves, with no input to read. -/
def State.blocked (s : State) : Bool :=
  match s.status, s.fetchWindow with
  | .running, .ok bytes =>
    match decode bytes with
    | .ok (.readInput c dst) =>
      c.holds s.flag && (s.resolveDest 0 dst).isOk && s.cin.isEmpty && decide (s.pc ≠ s.len)
    | _ => false
  | _, _ => false

/-- The states of the runs of a machine (R90, R210, R216): launched, then stepped, given input, or reset again. -/
inductive Reachable : State → Prop where
  | launch (cfg : Config) (run : Nat) (bios disk cin : List Byte) :
      cfg.wf = true → launchOk bios disk = true → Reachable (State.launch cfg run bios disk cin)
  | step {s t : State} : Reachable s → Machine.step s = .next t → Reachable t
  | input {s : State} (bytes : List Byte) : Reachable s → Reachable (s.supplyInput bytes)
  | reset {s : State} (bios disk cin : List Byte) :
      Reachable s → launchOk bios disk = true → Reachable (s.hostReset bios disk cin)

end Sys2Proof.Machine
end

