-- ==== Sys2Proof/Certificates/Slice0/Obligations.lean ====
section
/-! DEFINITION. The statements for the provers. Under `Sys2Proof.Claims` stand the words the statements share: which
parts of the state are the same, and what a written destination holds. -/

namespace Sys2Proof.Claims

open Sys2Proof.Machine

/-- Every byte of RAM reads as before. -/
def SameRam (s t : State) : Prop := ∀ a, t.ramByte a = s.ramByte a

/-- The disk and both sides of the console are as before. -/
def SameDevices (s t : State) : Prop := t.disk = s.disk ∧ t.cin = s.cin ∧ t.cout = s.cout

/-- The machine runs on in the same frames, with the `pc` of the current frame alone moved, and the status, the fault
record and the parameters of the run are as before. -/
def SameMachine (s t : State) : Prop :=
  t.current = { s.current with pc := t.pc } ∧ t.callers = s.callers ∧ t.status = s.status ∧ t.fault = s.fault ∧
    t.bios = s.bios ∧ t.ramSize = s.ramSize ∧ t.maxDepth = s.maxDepth ∧ t.run = s.run

/-- The destination `l` holds `v`, and every other register and every byte of RAM outside the stored four is as
before. A stored number lies in RAM as the encoder's bytes. -/
def Writes (s t : State) (l : Location) (v : Word) : Prop :=
  match l with
  | .reg i => t.reg i = v ∧ (∀ j, j ≠ i → t.reg j = s.reg j) ∧ t.nregs = s.nregs ∧ SameRam s t
  | .ram a =>
    enc v.toInt = some (t.ramQuad a) ∧ (∀ x, x < a ∨ a + 4 ≤ x → t.ramByte x = s.ramByte x) ∧ t.regs = s.regs
  | .const _ => False

/-- The destination can take `v`: a register any word, RAM a number in −65535 … 65535 (R105). -/
def Storable (l : Location) (v : Word) : Prop :=
  match l with
  | .ram _ => -65535 ≤ v.toInt ∧ v.toInt ≤ 65535
  | _ => True

/-- Two-source instructions `mk` with result `op a b` where `pre a b`: whatever forms their operands have, they write
the result to the destination, advance by 17 and leave all else as before. -/
def BinaryCompletes (mk : Cond → Operand → Operand → Operand → Instr) (op : Word → Word → Word)
    (pre : Word → Word → Prop) : Prop :=
  ∀ (s : State) (c : Cond) (a b d : Operand) (va vb : Word) (l : Location),
    c.holds s.flag = true → s.readOperand a = .ok va → s.readOperand b = .ok vb → pre va vb →
    s.resolveDest 2 d = .ok l → Storable l (op va vb) →
    ∃ t, exec (mk c a b d) s = .next t ∧ t.pc = s.pc + 17 ∧ Writes s t l (op va vb) ∧ t.flag = s.flag ∧
      SameDevices s t ∧ SameMachine s t

/-- The faults of a two-source instruction in their order: slot 0, slot 1, then (past `pre`) the destination, then a
result RAM cannot take. -/
def BinaryFaults (mk : Cond → Operand → Operand → Operand → Instr) (op : Word → Word → Word)
    (pre : Word → Word → Prop) : Prop :=
  ∀ (s : State) (c : Cond) (a b d : Operand), c.holds s.flag = true →
    (∀ e, s.readOperand a = .error e → exec (mk c a b d) s = .next (s.raise e)) ∧
    (∀ va e, s.readOperand a = .ok va → s.readOperand b = .error e →
      exec (mk c a b d) s = .next (s.raise e)) ∧
    (∀ va vb e, s.readOperand a = .ok va → s.readOperand b = .ok vb → pre va vb →
      s.resolveDest 2 d = .error e → exec (mk c a b d) s = .next (s.raise e)) ∧
    (∀ va vb x, s.readOperand a = .ok va → s.readOperand b = .ok vb → pre va vb →
      s.resolveDest 2 d = .ok (.ram x) → ¬Storable (.ram x) (op va vb) →
      exec (mk c a b d) s = .next (s.raise (.encodeRange (op va vb).toInt)))

/-- No condition on the operand values. -/
def anyValues (_ _ : Word) : Prop := True

/-- The divisor is not 0. -/
def divisorNotZero (_ b : Word) : Prop := b.toInt ≠ 0

/-- The operand an instruction writes through the resolver, if it has one (R64). -/
def destination : Instr → Option Operand
  | .move _ _ d | .add _ _ _ d | .subtract _ _ _ d | .multiply _ _ _ d | .divide _ _ _ d | .modulo _ _ _ d
  | .bitwiseAnd _ _ _ d | .bitwiseOr _ _ _ d | .bitwiseXor _ _ _ d | .readInput _ d | .diskRead _ _ d => some d
  | .compare _ _ _ | .branch _ _ | .writeOutput _ _ | .diskWrite _ _ _ | .nestedExecution _ _ _ | .halt _ => none

/-- The statement an opcode byte spells over the operands of slots 0, 1 and 2: the tables of R62 and R64, with slots an
opcode does not use left out. -/
def spelled (op : Nat) (c : Cond) (x y z : Operand) : Option Instr :=
  match op with
  | 0x00 => some (.move c x y)
  | 0x01 => some (.add c x y z)
  | 0x02 => some (.subtract c x y z)
  | 0x03 => some (.multiply c x y z)
  | 0x04 => some (.divide c x y z)
  | 0x05 => some (.modulo c x y z)
  | 0x06 => some (.bitwiseAnd c x y z)
  | 0x07 => some (.bitwiseOr c x y z)
  | 0x08 => some (.bitwiseXor c x y z)
  | 0x09 => some (.compare c x y)
  | 0x0A => some (.branch c x)
  | 0x0B => some (.readInput c x)
  | 0x0C => some (.writeOutput c x)
  | 0x0D => some (.diskRead c x y)
  | 0x0E => some (.diskWrite c x y)
  | 0x0F => some (.nestedExecution c x y)
  | 0x10 => some (.halt c)
  | _ => none

end Sys2Proof.Claims

open Sys2Proof Sys2Proof.Machine Sys2Proof.Claims

/-! ### The Number Codec -/

/-- R30: the decode formula, negated exactly for a `b0` that is not 0 and a multiple of 8. -/
def Obligations.DecodeNumberFormula : Prop :=
  ∀ b0 b1 b2 b3 : Byte,
    let m : Int := b3.toNat + 16 * b2.toNat + 256 * b1.toNat + b0.toNat % 8
    (b0 ≠ 0 ∧ b0.toNat % 8 = 0 → dec ⟨b0, b1, b2, b3⟩ = -m) ∧
      (¬(b0 ≠ 0 ∧ b0.toNat % 8 = 0) → dec ⟨b0, b1, b2, b3⟩ = m)

/-- R33: the values of `dec` are exactly −69615 … 69622, and every payload and every number read from RAM or disk
lies there. -/
def Obligations.DecodedNumbersFillTheirRange : Prop :=
  (∀ v : Int, (∃ q, dec q = v) ↔ -69615 ≤ v ∧ v ≤ 69622) ∧
    (∀ (s : State) (a : Nat), -69615 ≤ (s.numRead a).toInt ∧ (s.numRead a).toInt ≤ 69622) ∧
    (∀ (s : State) (a : Nat), -69615 ≤ (s.diskNumRead a).toInt ∧ (s.diskNumRead a).toInt ≤ 69622) ∧
    (∀ (st : List Byte) (k : Nat), -69615 ≤ (decodeSlot st k).payload ∧ (decodeSlot st k).payload ≤ 69622)

/-- R34: the encoder's domain and its four bytes. -/
def Obligations.EncodeNumberFormula : Prop :=
  (∀ v : Int, v < -65535 ∨ v > 65535 → enc v = none) ∧
    (∀ v : Int, -65535 ≤ v → v ≤ 65535 →
      ∃ q, enc v = some q ∧ q.b0 = (if v < 0 then 8 else 0) ∧ q.b1.toNat = v.natAbs / 256 ∧ q.b2 = 0 ∧
        q.b3.toNat = v.natAbs % 256)

/-- R35: every value the encoder takes is read back, and the converse fails for the rule's own example. -/
def Obligations.EncodeThenDecodeGivesTheValue : Prop :=
  (∀ v : Int, -65535 ≤ v → v ≤ 65535 → ∃ q, enc v = some q ∧ dec q = v) ∧
    enc (dec ⟨0, 0, 16, 0⟩) = some ⟨0, 1, 0, 0⟩

/-- R36: the encoder's patterns are `(0, h, 0, l)` and `(8, h, 0, l)` with `(h, l)` not zero, and they are exactly the
patterns that decoding and encoding again leave as they are. -/
def Obligations.EncodedPatternsAreTheCanonicalOnes : Prop :=
  ∀ q : Quad,
    ((∃ v, enc v = some q) ↔ q.b2 = 0 ∧ (q.b0 = 0 ∨ (q.b0 = 8 ∧ ¬(q.b1 = 0 ∧ q.b3 = 0)))) ∧
      (enc (dec q) = some q ↔ ∃ v, enc v = some q)

/-- R7: `wrap32` gives the word congruent to its argument modulo 2^32. -/
def Obligations.WrapIsTheCongruentWord : Prop :=
  ∀ (n : Int) (w : Word), w = wrap32 n ↔ (w.toInt - n) % 4294967296 = 0

/-! ### Encoding -/

/-- Every well-formed instruction, with every operand at every value, is what its encoding decodes to, whatever bytes
follow it. Which spelling `encode` gives a payload is the model's choice (notes/assumptions/10.md). -/
def Obligations.DecodeOfEncodeIsTheInstruction : Prop :=
  ∀ (i : Instr) (rest : List Byte), i.wellFormed = true → decode (encode i ++ rest) = .ok i

/-- What the decoder accepts is a well-formed instruction that lies wholly in the bytes given, and encoding it again
decodes to the same instruction. -/
def Obligations.DecodedInstructionsAreWellFormed : Prop :=
  ∀ (bs : List Byte) (i : Instr), decode bs = .ok i →
    i.wellFormed = true ∧ i.length ≤ bs.length ∧ decode (encode i) = .ok i

/-- Words written out from R60 to R69 decode to the statements they spell. -/
def Obligations.SpecWordsDecode : Prop :=
  decodeTableWord 136 0x0000000000000000000005000000030000 = some (.move .eq (.constant 5) (.register 0)) ∧
    decodeTableWord 136 0x0100000000030000000300000000000001
      = some (.add .eq (.register 0) (.constant 3) (.register 1)) ∧
    decodeTableWord 56 0x3A00000003020A = some (.branch .gt (.constant 58)) ∧
    decodeTableWord 56 0x0000000000000B = some (.readInput .eq (.register 0)) ∧
    decodeTableWord 136 0x00000000000E000000030000010003000F
      = some (.nestedExecution .eq (.constant 256) (.constant 14)) ∧
    decodeTableWord 8 0x10 = some (.halt .eq) ∧
    decodeTableWord 8 0x11 = none

/-- The decoder's checks in the order of R92 to R94, with the lengths of R63, on the bytes from `pc` to the end of the
stream; and what it reads past them: the statement of R62 and R64 over the slots, with the condition of R66. -/
def Obligations.DecoderChecksInOrder : Prop :=
  (∀ bs : List Byte, bs.length < 2 → decode bs = .error .truncated) ∧
    ∀ (op cond : Byte) (rest : List Byte),
      let bs := op :: cond :: rest
      let len := if op.toNat ≤ 0x09 ∨ (0x0D ≤ op.toNat ∧ op.toNat ≤ 0x0F) then 17 else 7
      (op.toNat > 0x10 → decode bs = .error (.illegalOpcode op)) ∧
        (op.toNat ≤ 0x10 → bs.length < len → decode bs = .error .truncated) ∧
        (op.toNat ≤ 0x10 → len ≤ bs.length → cond.toNat > 5 → decode bs = .error (.illegalCondition cond)) ∧
        (op.toNat ≤ 0x10 → len ≤ bs.length → cond.toNat ≤ 5 →
          ∃ i c, decode bs = .ok i ∧ [Cond.eq, .ne, .gt, .ngt, .lt, .nlt][cond.toNat]? = some c ∧
            spelled op.toNat c (decodeSlot bs 0) (decodeSlot bs 1) (decodeSlot bs 2) = some i ∧
            i.opcode.toByte = op ∧ i.cond.toByte = cond ∧ i.length = len)

/-- R65: the bytes of unused slots have no effect on what a statement is. -/
def Obligations.UnusedSlotBytesAreIgnored : Prop :=
  ∀ (bs bs' : List Byte) (i : Instr), decode bs = .ok i → i.length ≤ bs'.length →
    (∀ k, k < 2 + 5 * i.operands.length → bs'.getD k 0 = bs.getD k 0) → decode bs' = .ok i

/-! ### The step -/

/-- A running machine whose frame is not exhausted runs, by `exec`, the instruction the bytes at its `pc` decode to.
The step adds nothing around `exec`: an instruction's meaning moves the `pc` itself. -/
def Obligations.StepRunsTheDecodedInstruction : Prop :=
  ∀ (s : State) (bs : List Byte) (i : Instr), s.status = .running → s.pc ≠ s.len → s.fetchWindow = .ok bs →
    decode bs = .ok i → step s = exec i s

/-- The same from the bytes of the stream: where the stream holds the encoding of a well-formed instruction at `pc`,
the step is that instruction. -/
def Obligations.StepRunsTheEncodedInstruction : Prop :=
  ∀ (s : State) (i : Instr), s.Inv = true → s.status = .running → i.wellFormed = true →
    s.pc + i.length ≤ s.len → (∀ k, k < i.length → s.streamByte (s.pc + k) = (encode i)[k]?) → step s = exec i s

/-- R91: the end of an exhausted frame. -/
def Obligations.ExhaustedFrameEnds : Prop :=
  ∀ s : State, s.status = .running → s.pc = s.len →
    (s.depth = 0 → step s = .next { s with status := .halted .exhausted }) ∧
      (∀ caller rest, s.callers = caller :: rest → step s = .next { s with current := caller, callers := rest })

/-- R92 to R94: what a statement that cannot be decoded raises, in the order of the checks. -/
def Obligations.UndecodableStatementRaises : Prop :=
  ∀ s : State, s.Inv = true → s.status = .running → s.pc < s.len →
    (s.pc + 2 > s.len → step s = .next (s.raise (.truncatedStatement s.pc))) ∧
      ∀ op cond : Byte, s.pc + 2 ≤ s.len → s.streamByte s.pc = some op → s.streamByte (s.pc + 1) = some cond →
        (op.toNat > 0x10 → step s = .next (s.raise (.illegalOpcode op))) ∧
          ∀ code : Opcode, code.toByte = op →
            (s.pc + code.length > s.len → step s = .next (s.raise (.truncatedStatement s.pc))) ∧
              (s.pc + code.length ≤ s.len → cond.toNat > 5 → step s = .next (s.raise (.illegalCondition cond)))

/-- R97: a statement whose condition does not hold moves the `pc` past itself and does nothing else. -/
def Obligations.SkippedStatementOnlyAdvances : Prop :=
  ∀ (i : Instr) (s : State), i.cond.holds s.flag = false →
    exec i s = .next { s with current := { s.current with pc := s.pc + i.length } }

/-- R96: the six conditions, and the three complementary pairs. -/
def Obligations.ConditionTable : Prop :=
  ∀ c : Word,
    (Cond.eq.holds c = true ↔ c.toInt = 0) ∧ (Cond.ne.holds c = true ↔ c.toInt ≠ 0) ∧
      (Cond.gt.holds c = true ↔ c.toInt > 0) ∧ (Cond.ngt.holds c = true ↔ c.toInt ≤ 0) ∧
      (Cond.lt.holds c = true ↔ c.toInt < 0) ∧ (Cond.nlt.holds c = true ↔ c.toInt ≥ 0) ∧
      Cond.eq.holds c ≠ Cond.ne.holds c ∧ Cond.gt.holds c ≠ Cond.ngt.holds c ∧ Cond.lt.holds c ≠ Cond.nlt.holds c

/-- A halted or faulted machine stays as it is for any number of steps (R162, R185). That the model says so by a step
that answers the same state is the model's choice (notes/assumptions/4.md). -/
def Obligations.StoppedMachineStaysAsItIs : Prop :=
  ∀ (s : State) (n : Nat), s.status ≠ .running → Sys2Proof.core.run n s = .next s

/-! ### The Addressing Resolver -/

/-- R101: what each mode tag makes of a slot. -/
def Obligations.ResolveByModeTag : Prop :=
  ∀ (s : State) (st : List Byte) (k : Nat),
    let mode := (st.getD (2 + 5 * k) 0).toNat
    let p := dec ⟨st.getD (3 + 5 * k) 0, st.getD (4 + 5 * k) 0, st.getD (5 + 5 * k) 0, st.getD (6 + 5 * k) 0⟩
    let a := (s.reg p.toNat).toInt
    s.resolve (decodeSlot st k) =
      if mode = 0 then if p < 0 ∨ p ≥ s.nregs then .error (.badRegister p) else .ok (.reg p.toNat)
      else if mode = 1 then
        if p < 0 ∨ p ≥ s.nregs then .error (.badRegister p)
        else if a < 0 ∨ a + 4 > s.ramSize then .error (.ramOutOfRange a)
        else .ok (.ram a.toNat)
      else if mode = 2 then if p < 0 ∨ p + 4 > s.ramSize then .error (.ramOutOfRange p) else .ok (.ram p.toNat)
      else if mode = 3 then .ok (.const (wrap32 p))
      else .error (.invalidMode (st.getD (2 + 5 * k) 0))

/-- R102, R103: the value of an operand of each mode, when it has one, and the fault it raises when it has none: the
fault of its resolution, and no other. -/
def Obligations.OperandValueByMode : Prop :=
  ∀ (s : State) (v : Word) (e : Cause),
    (∀ p : Int, s.readOperand (.register p) = .ok v ↔ 0 ≤ p ∧ p < s.nregs ∧ v = s.reg p.toNat) ∧
      (∀ p : Int, s.readOperand (.registerValue p) = .ok v ↔
        0 ≤ p ∧ p < s.nregs ∧ 0 ≤ (s.reg p.toNat).toInt ∧ (s.reg p.toNat).toInt + 4 ≤ s.ramSize ∧
          v.toInt = dec (s.ramQuad (s.reg p.toNat).toInt.toNat)) ∧
      (∀ p : Int, s.readOperand (.pointer p) = .ok v ↔
        0 ≤ p ∧ p + 4 ≤ s.ramSize ∧ v.toInt = dec (s.ramQuad p.toNat)) ∧
      (∀ p : Int, s.readOperand (.constant p) = .ok v ↔ v = wrap32 p) ∧
      (∀ o, s.readOperand o = .error e ↔ s.resolve o = .error e) ∧
      (∀ p : Int, s.readOperand (.register p) = .error e ↔ (p < 0 ∨ p ≥ s.nregs) ∧ e = .badRegister p) ∧
      (∀ p : Int, s.readOperand (.registerValue p) = .error e ↔
        ((p < 0 ∨ p ≥ s.nregs) ∧ e = .badRegister p) ∨
          (0 ≤ p ∧ p < s.nregs ∧ ((s.reg p.toNat).toInt < 0 ∨ (s.reg p.toNat).toInt + 4 > s.ramSize) ∧
            e = .ramOutOfRange (s.reg p.toNat).toInt)) ∧
      (∀ p : Int, s.readOperand (.pointer p) = .error e ↔ (p < 0 ∨ p + 4 > s.ramSize) ∧ e = .ramOutOfRange p) ∧
      (∀ p : Int, s.readOperand (.constant p) ≠ .error e) ∧
      (∀ tag, s.readOperand (.invalid tag) = .error e ↔ e = .invalidMode tag)

/-- R104: a constant is no destination, and any other operand is the destination it resolves to. -/
def Obligations.ConstantIsNoDestination : Prop :=
  ∀ (s : State) (k : Nat) (o : Operand),
    (∀ v, s.resolve o = .ok (.const v) → s.resolveDest k o = .error (.writeToConstant k)) ∧
      (∀ l, s.resolve o = .ok l → (∀ v, l ≠ .const v) → s.resolveDest k o = .ok l) ∧
      (∀ e, s.resolve o = .error e → s.resolveDest k o = .error e)

/-- R106: what is written through an operand is read back through it; RAM takes exactly −65535 … 65535, a register
any word, a constant nothing. -/
def Obligations.WrittenOperandReadsBack : Prop :=
  ∀ (s : State) (k : Nat) (o : Operand) (v : Word),
    (∀ l t, s.resolveDest k o = .ok l → s.store l v = .ok t → t.readOperand o = .ok v) ∧
      (∀ i, s.resolveDest k o = .ok (.reg i) → ∃ t, s.store (.reg i) v = .ok t) ∧
      (∀ a, s.resolveDest k o = .ok (.ram a) → -65535 ≤ v.toInt → v.toInt ≤ 65535 →
        ∃ t, s.store (.ram a) v = .ok t) ∧
      (∀ a, s.resolveDest k o = .ok (.ram a) → v.toInt < -65535 ∨ v.toInt > 65535 →
        s.store (.ram a) v = .error (.encodeRange v.toInt)) ∧
      (∀ p, o = .constant p → s.resolveDest k o = .error (.writeToConstant k))

/-! ### move and the arithmetic and logical instructions -/

/-- R120: move writes the source's value to the destination and nothing else. -/
def Obligations.MoveCopiesTheValue : Prop :=
  ∀ (s : State) (c : Cond) (src dst : Operand) (v : Word) (l : Location),
    c.holds s.flag = true → s.readOperand src = .ok v → s.resolveDest 1 dst = .ok l → Storable l v →
    ∃ t, exec (.move c src dst) s = .next t ∧ t.pc = s.pc + 17 ∧ Writes s t l v ∧ t.flag = s.flag ∧
      SameDevices s t ∧ SameMachine s t

/-- R120: the faults of move in their order. -/
def Obligations.MoveFaultsInOrder : Prop :=
  ∀ (s : State) (c : Cond) (src dst : Operand), c.holds s.flag = true →
    (∀ e, s.readOperand src = .error e → exec (.move c src dst) s = .next (s.raise e)) ∧
      (∀ v e, s.readOperand src = .ok v → s.resolveDest 1 dst = .error e →
        exec (.move c src dst) s = .next (s.raise e)) ∧
      (∀ v a, s.readOperand src = .ok v → s.resolveDest 1 dst = .ok (.ram a) → ¬Storable (.ram a) v →
        exec (.move c src dst) s = .next (s.raise (.encodeRange v.toInt)))

/-- R121 to R123: add, subtract and multiply write the exact result wrapped to 32 bits. -/
def Obligations.AddSubtractMultiplyWriteTheWrappedResult : Prop :=
  BinaryCompletes .add (fun a b => wrap32 (a.toInt + b.toInt)) anyValues ∧
    BinaryCompletes .subtract (fun a b => wrap32 (a.toInt - b.toInt)) anyValues ∧
    BinaryCompletes .multiply (fun a b => wrap32 (a.toInt * b.toInt)) anyValues

/-- R124, R125: divide and modulo, for a divisor that is not 0, write the truncated quotient and the remainder. -/
def Obligations.DivideModuloWriteQuotientAndRemainder : Prop :=
  BinaryCompletes .divide (fun a b => wrap32 (a.toInt.tdiv b.toInt)) divisorNotZero ∧
    BinaryCompletes .modulo (fun a b => wrap32 (a.toInt - a.toInt.tdiv b.toInt * b.toInt)) divisorNotZero

/-- R126 to R128: the bitwise instructions write the word whose every bit is the operation of the operands' bits. -/
def Obligations.BitwiseInstructionsWriteEachBit : Prop :=
  BinaryCompletes .bitwiseAnd (fun a b => BitVec.ofFnLE fun i => a.getLsbD i && b.getLsbD i) anyValues ∧
    BinaryCompletes .bitwiseOr (fun a b => BitVec.ofFnLE fun i => a.getLsbD i || b.getLsbD i) anyValues ∧
    BinaryCompletes .bitwiseXor (fun a b => BitVec.ofFnLE fun i => a.getLsbD i ^^ b.getLsbD i) anyValues

/-- R129: the faults of the eight two-source instructions in their order. -/
def Obligations.BinaryFaultsInOrder : Prop :=
  BinaryFaults .add (fun a b => wrap32 (a.toInt + b.toInt)) anyValues ∧
    BinaryFaults .subtract (fun a b => wrap32 (a.toInt - b.toInt)) anyValues ∧
    BinaryFaults .multiply (fun a b => wrap32 (a.toInt * b.toInt)) anyValues ∧
    BinaryFaults .divide (fun a b => wrap32 (a.toInt.tdiv b.toInt)) divisorNotZero ∧
    BinaryFaults .modulo (fun a b => wrap32 (a.toInt - a.toInt.tdiv b.toInt * b.toInt)) divisorNotZero ∧
    BinaryFaults .bitwiseAnd (fun a b => a &&& b) anyValues ∧
    BinaryFaults .bitwiseOr (fun a b => a ||| b) anyValues ∧
    BinaryFaults .bitwiseXor (fun a b => a ^^^ b) anyValues

/-- R124, R125: a divisor of 0 raises `DivideByZero` with the dividend, whatever the destination is. -/
def Obligations.ZeroDivisorRaises : Prop :=
  ∀ (s : State) (c : Cond) (a b d : Operand) (va vb : Word), c.holds s.flag = true →
    s.readOperand a = .ok va → s.readOperand b = .ok vb → vb.toInt = 0 →
    exec (.divide c a b d) s = .next (s.raise (.divideByZero va.toInt)) ∧
      exec (.modulo c a b d) s = .next (s.raise (.divideByZero va.toInt))

/-- R131: the division laws, of the operations divide and modulo apply: the quotient is the exact one rounded toward
zero, wrapped only for −2^31 by −1; the remainder has the dividend's sign or is 0, and is smaller than the divisor. -/
def Obligations.DivisionLaws : Prop :=
  ∀ a b : Word, b.toInt ≠ 0 →
    ∃ q r : Word, aluDivide a b = .ok q ∧ aluModulo a b = .ok r ∧
      (a.toInt = -2147483648 ∧ b.toInt = -1 → q.toInt = -2147483648 ∧ r.toInt = 0) ∧
      (¬(a.toInt = -2147483648 ∧ b.toInt = -1) →
        a.toInt = q.toInt * b.toInt + r.toInt ∧ q.toInt.natAbs = a.toInt.natAbs / b.toInt.natAbs) ∧
      r.toInt.natAbs < b.toInt.natAbs ∧ (0 ≤ a.toInt → 0 ≤ r.toInt) ∧ (a.toInt ≤ 0 → r.toInt ≤ 0)

/-! ### compare and branch -/

/-- R140: compare writes the wrapped difference to the flag and nothing else. -/
def Obligations.CompareWritesTheFlag : Prop :=
  ∀ (s : State) (c : Cond) (a b : Operand) (va vb : Word),
    c.holds s.flag = true → s.readOperand a = .ok va → s.readOperand b = .ok vb →
    exec (.compare c a b) s =
      .next { s with flag := wrap32 (va.toInt - vb.toInt), current := { s.current with pc := s.pc + 17 } }

/-- R142: what the conditions say of the compared values, without and with overflow of the difference. -/
def Obligations.ConditionsAfterCompare : Prop :=
  ∀ a b : Word,
    let f := compareFlag a b
    let d := a.toInt - b.toInt
    (Cond.eq.holds f = true ↔ a = b) ∧ (Cond.ne.holds f = true ↔ a ≠ b) ∧
      (-2147483648 ≤ d ∧ d ≤ 2147483647 →
        (Cond.gt.holds f = true ↔ a.toInt > b.toInt) ∧ (Cond.ngt.holds f = true ↔ a.toInt ≤ b.toInt) ∧
          (Cond.lt.holds f = true ↔ a.toInt < b.toInt) ∧ (Cond.nlt.holds f = true ↔ a.toInt ≥ b.toInt)) ∧
      (d < -2147483648 ∨ d > 2147483647 →
        (Cond.gt.holds f = true ↔ a.toInt < b.toInt) ∧ (Cond.ngt.holds f = true ↔ a.toInt ≥ b.toInt) ∧
          (Cond.lt.holds f = true ↔ a.toInt > b.toInt) ∧ (Cond.nlt.holds f = true ↔ a.toInt ≤ b.toInt)) ∧
      (a.toInt.natAbs < 1073741824 ∧ b.toInt.natAbs < 1073741824 → -2147483648 ≤ d ∧ d ≤ 2147483647)

/-- R141: a branch to an offset of its stream, the end included, moves the `pc` there and does nothing else. -/
def Obligations.BranchMovesThePc : Prop :=
  ∀ (s : State) (c : Cond) (target : Operand) (t : Word),
    c.holds s.flag = true → s.readOperand target = .ok t → 0 ≤ t.toInt → t.toInt ≤ s.len →
    exec (.branch c target) s = .next { s with current := { s.current with pc := t.toInt.toNat } }

/-- R140, R141, R151: the faults of compare, branch and write-output. -/
def Obligations.CompareBranchAndOutputFaults : Prop :=
  ∀ (s : State) (c : Cond) (a b : Operand), c.holds s.flag = true →
    (∀ e, s.readOperand a = .error e →
      exec (.compare c a b) s = .next (s.raise e) ∧ exec (.branch c a) s = .next (s.raise e) ∧
        exec (.writeOutput c a) s = .next (s.raise e)) ∧
      (∀ va e, s.readOperand a = .ok va → s.readOperand b = .error e →
        exec (.compare c a b) s = .next (s.raise e)) ∧
      (∀ t, s.readOperand a = .ok t → t.toInt < 0 ∨ t.toInt > s.len →
        exec (.branch c a) s = .next (s.raise (.branchOutOfRange t.toInt)))

/-! ### Console and disk -/

/-- R150: read-input takes the first input byte and writes its value 0 … 255 to the destination. -/
def Obligations.ReadInputStoresTheByte : Prop :=
  ∀ (s : State) (c : Cond) (dst : Operand) (l : Location) (b : Byte) (rest : List Byte),
    c.holds s.flag = true → s.resolveDest 0 dst = .ok l → s.cin = b :: rest →
    ∃ t, exec (.readInput c dst) s = .next t ∧ t.pc = s.pc + 7 ∧ Writes s t l (BitVec.ofNat 32 b.toNat) ∧
      t.cin = rest ∧ t.cout = s.cout ∧ t.disk = s.disk ∧ t.flag = s.flag ∧ SameMachine s t

/-- R150: a read-input whose destination does not resolve raises before it consumes anything. -/
def Obligations.ReadInputDestinationFaults : Prop :=
  ∀ (s : State) (c : Cond) (dst : Operand) (e : Cause), c.holds s.flag = true → s.resolveDest 0 dst = .error e →
    exec (.readInput c dst) s = .next (s.raise e) ∧ (s.raise e).cin = s.cin

/-- R154: a blocked machine stays as it is until input arrives, and then reads it. That it stays by a step that answers
the same state is the model's choice (notes/assumptions/4.md). -/
def Obligations.BlockedMachineWaitsForInput : Prop :=
  ∀ s : State, s.blocked = true →
    step s = .next s ∧
      ∀ (b : Byte) (more : List Byte),
        ∃ t, step (s.supplyInput (b :: more)) = .next t ∧ t.cin = more ∧ t.pc = s.pc + 7 ∧ t.status = .running

/-- R151: write-output appends the low byte of its operand to the output and does nothing else. -/
def Obligations.WriteOutputAppendsTheLowByte : Prop :=
  ∀ (s : State) (c : Cond) (src : Operand) (v : Word),
    c.holds s.flag = true → s.readOperand src = .ok v →
    exec (.writeOutput c src) s =
      .next
        { s with
          cout := s.cout ++ [BitVec.ofNat 8 (v.toInt % 256).toNat]
          current := { s.current with pc := s.pc + 7 } }

/-- R152: disk-read writes the number at a disk offset to the destination. -/
def Obligations.DiskReadCopiesTheNumber : Prop :=
  ∀ (s : State) (c : Cond) (offset dst : Operand) (o v : Word) (l : Location),
    c.holds s.flag = true → s.readOperand offset = .ok o → 0 ≤ o.toInt → o.toInt + 4 ≤ s.disk.length →
    v.toInt =
      dec ⟨s.diskByte o.toInt.toNat, s.diskByte (o.toInt.toNat + 1), s.diskByte (o.toInt.toNat + 2),
        s.diskByte (o.toInt.toNat + 3)⟩ →
    s.resolveDest 1 dst = .ok l → Storable l v →
    ∃ t, exec (.diskRead c offset dst) s = .next t ∧ t.pc = s.pc + 17 ∧ Writes s t l v ∧ t.flag = s.flag ∧
      SameDevices s t ∧ SameMachine s t

/-- R153: disk-write puts the encoder's four bytes at a disk offset and changes nothing else. -/
def Obligations.DiskWriteStoresTheNumber : Prop :=
  ∀ (s : State) (c : Cond) (value offset : Operand) (v o : Word),
    c.holds s.flag = true → s.readOperand value = .ok v → s.readOperand offset = .ok o →
    0 ≤ o.toInt → o.toInt + 4 ≤ s.disk.length → -65535 ≤ v.toInt → v.toInt ≤ 65535 →
    ∃ (disk : List Byte) (q : Quad),
      exec (.diskWrite c value offset) s =
        .next { s with disk := disk, current := { s.current with pc := s.pc + 17 } } ∧
      enc v.toInt = some q ∧ disk.length = s.disk.length ∧
      disk.getD o.toInt.toNat 0 = q.b0 ∧ disk.getD (o.toInt.toNat + 1) 0 = q.b1 ∧
      disk.getD (o.toInt.toNat + 2) 0 = q.b2 ∧ disk.getD (o.toInt.toNat + 3) 0 = q.b3 ∧
      ∀ x, x < o.toInt.toNat ∨ o.toInt.toNat + 4 ≤ x → disk.getD x 0 = s.diskByte x

/-- R152, R153: the faults of disk-read and disk-write in their order: the operands read, the disk range, then for
disk-read the destination and a number RAM cannot take, for disk-write a number the disk cannot take. -/
def Obligations.DiskFaultsInOrder : Prop :=
  ∀ (s : State) (c : Cond) (x y : Operand), c.holds s.flag = true →
    (∀ e, s.readOperand x = .error e →
      exec (.diskRead c x y) s = .next (s.raise e) ∧ exec (.diskWrite c x y) s = .next (s.raise e)) ∧
      (∀ v e, s.readOperand x = .ok v → s.readOperand y = .error e →
        exec (.diskWrite c x y) s = .next (s.raise e)) ∧
      (∀ o, s.readOperand x = .ok o → o.toInt < 0 ∨ o.toInt + 4 > s.disk.length →
        exec (.diskRead c x y) s = .next (s.raise (.diskOutOfRange o.toInt))) ∧
      (∀ o e, s.readOperand x = .ok o → 0 ≤ o.toInt → o.toInt + 4 ≤ s.disk.length → s.resolveDest 1 y = .error e →
        exec (.diskRead c x y) s = .next (s.raise e)) ∧
      (∀ o v a, s.readOperand x = .ok o → 0 ≤ o.toInt → o.toInt + 4 ≤ s.disk.length →
        v.toInt =
          dec ⟨s.diskByte o.toInt.toNat, s.diskByte (o.toInt.toNat + 1), s.diskByte (o.toInt.toNat + 2),
            s.diskByte (o.toInt.toNat + 3)⟩ →
        s.resolveDest 1 y = .ok (.ram a) → ¬Storable (.ram a) v →
        exec (.diskRead c x y) s = .next (s.raise (.encodeRange v.toInt))) ∧
      (∀ v o, s.readOperand x = .ok v → s.readOperand y = .ok o → o.toInt < 0 ∨ o.toInt + 4 > s.disk.length →
        exec (.diskWrite c x y) s = .next (s.raise (.diskOutOfRange o.toInt))) ∧
      (∀ v o, s.readOperand x = .ok v → s.readOperand y = .ok o → 0 ≤ o.toInt → o.toInt + 4 ≤ s.disk.length →
        v.toInt < -65535 ∨ v.toInt > 65535 → exec (.diskWrite c x y) s = .next (s.raise (.encodeRange v.toInt)))

/-! ### nested-execution and halt -/

/-- R160: a call of a non-empty range inside RAM pushes its frame over the caller's next statement. -/
def Obligations.NestedExecutionPushesAFrame : Prop :=
  ∀ (s : State) (c : Cond) (offset length : Operand) (o n : Word),
    c.holds s.flag = true → s.readOperand offset = .ok o → s.readOperand length = .ok n →
    0 < n.toInt → 0 ≤ o.toInt → o.toInt + n.toInt ≤ s.ramSize → s.depth + 1 ≤ s.maxDepth →
    exec (.nestedExecution c offset length) s =
      .next
        { s with
          current := { space := .ram, base := o.toInt.toNat, len := n.toInt.toNat, pc := 0 }
          callers := { s.current with pc := s.pc + 17 } :: s.callers }

/-- R165: a zero-length nested execution only advances, at every offset and depth; but its operands are read first. -/
def Obligations.ZeroLengthCallOnlyAdvances : Prop :=
  ∀ (s : State) (c : Cond) (offset length : Operand), c.holds s.flag = true →
    (∀ o n, s.readOperand offset = .ok o → s.readOperand length = .ok n → n.toInt = 0 →
      exec (.nestedExecution c offset length) s =
        .next { s with current := { s.current with pc := s.pc + 17 } }) ∧
      (∀ e, s.readOperand offset = .error e →
        exec (.nestedExecution c offset length) s = .next (s.raise e)) ∧
      (∀ o e, s.readOperand offset = .ok o → s.readOperand length = .error e →
        exec (.nestedExecution c offset length) s = .next (s.raise e))

/-- R160, R164: the faults of a call of length other than 0, in their order. -/
def Obligations.CallFaultsInOrder : Prop :=
  ∀ (s : State) (c : Cond) (offset length : Operand) (o n : Word),
    c.holds s.flag = true → s.readOperand offset = .ok o → s.readOperand length = .ok n →
    (n.toInt < 0 → exec (.nestedExecution c offset length) s = .next (s.raise (.badRange n.toInt))) ∧
      (0 < n.toInt → o.toInt < 0 ∨ o.toInt + n.toInt > s.ramSize →
        exec (.nestedExecution c offset length) s = .next (s.raise (.ramOutOfRange o.toInt))) ∧
      (0 < n.toInt → 0 ≤ o.toInt → o.toInt + n.toInt ≤ s.ramSize → s.depth + 1 > s.maxDepth →
        exec (.nestedExecution c offset length) s = .next (s.raise (.nestDepthExceeded (s.depth + 1))))

/-- R161: halt stops the machine at depth 0, its `pc` left at the halt, and returns to the caller deeper. -/
def Obligations.HaltEndsTheEnclosingFrame : Prop :=
  ∀ (s : State) (c : Cond), c.holds s.flag = true →
    (s.depth = 0 → exec (.halt c) s = .next { s with status := .halted .haltOp }) ∧
      (∀ caller rest, s.callers = caller :: rest →
        exec (.halt c) s = .next { s with current := caller, callers := rest })

/-- R163, R167: a call whose callee does what it does to the rest of the state and then halts resumes the caller at its
next statement, with every other piece of state as the callee left it. -/
def Obligations.CallAndHaltResumeTheCaller : Prop :=
  ∀ (s t u : State) (c c' : Cond) (offset length : Operand),
    exec (.nestedExecution c offset length) s = .next t → t.callers ≠ s.callers →
    u.callers = t.callers → c'.holds u.flag = true →
    exec (.halt c') u = .next { u with current := { s.current with pc := s.pc + 17 }, callers := s.callers }

/-! ### The whole machine -/

/-- R184: what taking a fault does, with the codes and infos of R180. -/
def Obligations.FaultEntryWritesTheRecord : Prop :=
  ∀ (s : State) (e : Cause),
    s.raise e =
      { s with
        status := .faulted
        fault :=
          some
            { code :=
                (match e with
                 | .illegalOpcode _ => 1 | .illegalCondition _ => 2 | .truncatedStatement _ => 3
                 | .invalidMode _ => 4 | .badRegister _ => 5 | .writeToConstant _ => 6 | .ramOutOfRange _ => 7
                 | .diskOutOfRange _ => 8 | .encodeRange _ => 9 | .divideByZero _ => 10
                 | .branchOutOfRange _ => 11 | .badRange _ => 12 | .nestDepthExceeded _ => 13)
              info :=
                (match e with
                 | .illegalOpcode b => (b.toNat : Int) | .illegalCondition b => b.toNat | .truncatedStatement n => n
                 | .invalidMode b => b.toNat | .badRegister v => v | .writeToConstant k => k
                 | .ramOutOfRange a => a | .diskOutOfRange o => o | .encodeRange v => v | .divideByZero a => a
                 | .branchOutOfRange t => t | .badRange n => n | .nestDepthExceeded n => n)
              depth := s.callers.length
              pc := s.current.pc
              space := s.current.space
              base := s.current.base } }

/-- R182, R184: a step that ends in a fault changes nothing but the status and the fault record, and the record names
the frame the statement stood in. -/
def Obligations.FaultsArePrecise : Prop :=
  ∀ s t : State, s.status = .running → step s = .next t → t.status = .faulted →
    ∃ r : FaultRecord, t = { s with status := .faulted, fault := some r } ∧ r.depth = s.depth ∧ r.pc = s.pc ∧
      r.space = s.current.space ∧ r.base = s.current.base ∧ 1 ≤ r.code ∧ r.code ≤ 13

/-- R14: no instruction but an executed compare changes the flag. -/
def Obligations.OnlyCompareWritesTheFlag : Prop :=
  ∀ (i : Instr) (s t : State), exec i s = .next t → t.flag ≠ s.flag → ∃ c a b, i = .compare c a b

/-- R11: an instruction changes a register only through its destination operand in REGISTER mode. -/
def Obligations.OnlyRegisterDestinationsChangeRegisters : Prop :=
  ∀ (i : Instr) (s t : State) (j : Nat), exec i s = .next t → t.reg j ≠ s.reg j →
    ∃ p : Int, destination i = some (.register p) ∧ p = j

/-- R47: an instruction changes a byte of RAM only as one of the four bytes its destination operand resolves to. -/
def Obligations.OnlyRamDestinationsChangeRam : Prop :=
  ∀ (i : Instr) (s t : State) (x : Nat), exec i s = .next t → t.ramByte x ≠ s.ramByte x →
    ∃ o a, destination i = some o ∧ s.resolve o = .ok (.ram a) ∧ a ≤ x ∧ x < a + 4

/-- R21, R23, R24: only disk-write changes the disk, only read-input consumes input, only write-output emits output,
and they do it a number or a byte at a time. -/
def Obligations.DevicesChangeOnlyByTheirInstructions : Prop :=
  ∀ (i : Instr) (s t : State), exec i s = .next t →
    (t.disk ≠ s.disk → ∃ c v o, i = .diskWrite c v o) ∧ t.disk.length = s.disk.length ∧
      (t.cin ≠ s.cin → (∃ c d, i = .readInput c d) ∧ ∃ b, s.cin = b :: t.cin) ∧
      (t.cout ≠ s.cout → (∃ c x, i = .writeOutput c x) ∧ ∃ b, t.cout = s.cout ++ [b])

/-- R17: a step leaves the suspended frames as they are, or suspends the current one on top of them, or resumes the
innermost. -/
def Obligations.FramesArePushedAndPopped : Prop :=
  ∀ s t : State, step s = .next t →
    (t.callers = s.callers ∧ t.current = { s.current with pc := t.pc }) ∨
      (∃ n, t.callers = { s.current with pc := s.pc + n } :: s.callers ∧ t.current.space = .ram ∧ t.pc = 0) ∨
      s.callers = t.current :: t.callers

/-- R22, R5: no step changes the BIOS bytes, a size, the configuration or the number of the run. That parameters stand
in the state, and the run's number, are the model's choice (notes/assumptions/1.md and 2.md). -/
def Obligations.ParametersNeverChange : Prop :=
  ∀ s t : State, step s = .next t →
    t.bios = s.bios ∧ t.config = s.config ∧ t.disk.length = s.disk.length ∧ t.run = s.run

/-- R54: a byte stored to RAM is what the next fetch from that address gives. -/
def Obligations.StoredBytesAreFetched : Prop :=
  ∀ (s : State) (a i : Nat) (q : Quad), s.current.space = .ram → a + 4 ≤ s.ramSize →
    (s.current.base + i = a → (s.setRamQuad a q).streamByte i = some q.b0) ∧
      (s.current.base + i = a + 1 → (s.setRamQuad a q).streamByte i = some q.b1) ∧
      (s.current.base + i = a + 2 → (s.setRamQuad a q).streamByte i = some q.b2) ∧
      (s.current.base + i = a + 3 → (s.setRamQuad a q).streamByte i = some q.b3) ∧
      (s.current.base + i < a ∨ a + 4 ≤ s.current.base + i → (s.setRamQuad a q).streamByte i = s.streamByte i)

/-- R28: the state right after reset, for every configuration and every launch. That a register holds 0 is the spec's
decision D26; that an unlisted byte of RAM is a free value is notes/assumptions/1.md. -/
def Obligations.ResetValues : Prop :=
  ∀ (cfg : Config) (run : Nat) (bios disk cin : List Byte),
    let s := State.launch cfg run bios disk cin
    (∀ i, s.reg i = 0) ∧ s.nregs = cfg.nregs ∧ s.flag = 0 ∧ (∀ a, s.ramByte a = Config.ramAtReset run a) ∧
      s.disk = disk ∧ s.bios = bios ∧
      s.frames = [{ space := .bios, base := 0, len := bios.length, pc := 0 }] ∧ s.depth = 0 ∧
      s.status = .running ∧ s.fault = none ∧ s.cin = cin ∧ s.cout = []

/-- The launched machine is well formed, and so is the machine of `State.reset`, whose empty launch is the model's
choice (notes/assumptions/3.md). -/
def Obligations.ResetIsWellFormed : Prop :=
  State.reset.Inv = true ∧
    ∀ (cfg : Config) (run : Nat) (bios disk cin : List Byte), cfg.wf = true → launchOk bios disk = true →
      (State.launch cfg run bios disk cin).Inv = true

/-- Every step keeps the machine well formed: RAM canonical and inside its size, the frame stack proper and no deeper
than `MAX_DEPTH`, every `pc` inside its stream, a fault record exactly when faulted (notes/assumptions/13.md), a halt only at
depth 0. -/
def Obligations.StepKeepsTheMachineWellFormed : Prop :=
  ∀ s t : State, s.Inv = true → step s = .next t → t.Inv = true

/-- A well-formed machine always answers a next state: the only stop of the model, a fetch outside the space, needs a
state the spec rules out (notes/assumptions/5.md). That a stopped or blocked machine answers too is the model's choice
(notes/assumptions/4.md). -/
def Obligations.WellFormedMachineNeverStops : Prop :=
  ∀ s : State, s.Inv = true → ∃ t, step s = .next t

/-- Every state of every run of the machine, under any input and resets, is well formed and the model can step it. That
a stopped or blocked machine steps to itself is the model's choice (notes/assumptions/4.md). -/
def Obligations.ReachableMachinesAreWellFormed : Prop :=
  ∀ s : State, Reachable s → s.Inv = true ∧ ∃ t, step s = .next t
end

