-- ==== Sys2Proof/Laws/Codec.lean ====
section
/-! SUPPORT. The Number Codec in integers: its range, the encoder's domain, and the words that numbers become. -/

namespace Sys2Proof.Machine

theorem byte_lt (b : Byte) : b.toNat < 256 := b.isLt

theorem byte_ofNat_toNat (n : Nat) (h : n < 256) : (BitVec.ofNat 8 n).toNat = n := by
  simp only [BitVec.toNat_ofNat]
  omega

theorem byte_ext {b c : Byte} (h : b.toNat = c.toNat) : b = c := BitVec.eq_of_toNat_eq h

/-- `dec` by the numbers its bytes hold. -/
theorem dec_cases (q : Quad) :
    (q.b0.toNat ≠ 0 ∧ q.b0.toNat % 8 = 0 ∧
        dec q = -((q.b3.toNat : Int) + 16 * q.b2.toNat + 256 * q.b1.toNat)) ∨
      (¬(q.b0.toNat ≠ 0 ∧ q.b0.toNat % 8 = 0) ∧
        dec q = (q.b3.toNat : Int) + 16 * q.b2.toNat + 256 * q.b1.toNat + q.b0.toNat % 8) := by
  unfold dec decMagnitude
  split
  · rename_i h
    refine .inl ⟨h.1, h.2, ?_⟩
    omega
  · rename_i h
    exact .inr ⟨h, rfl⟩

/-- Every decoded number lies in the range of R33. -/
theorem dec_bounds (q : Quad) : decMin ≤ dec q ∧ dec q ≤ decMax := by
  have h0 := byte_lt q.b0
  have h1 := byte_lt q.b1
  have h2 := byte_lt q.b2
  have h3 := byte_lt q.b3
  unfold decMin decMax
  rcases dec_cases q with ⟨_, _, h⟩ | ⟨_, h⟩ <;> rw [h] <;> omega

/-- `dec` of four bytes given by numbers. -/
theorem dec_ofNat {n0 n1 n2 n3 : Nat} (h0 : n0 < 256) (h1 : n1 < 256) (h2 : n2 < 256) (h3 : n3 < 256) :
    dec ⟨BitVec.ofNat 8 n0, BitVec.ofNat 8 n1, BitVec.ofNat 8 n2, BitVec.ofNat 8 n3⟩ =
      if n0 ≠ 0 ∧ n0 % 8 = 0 then -((n3 : Int) + 16 * n2 + 256 * n1)
      else (n3 : Int) + 16 * n2 + 256 * n1 + (n0 % 8 : Nat) := by
  have h := dec_cases ⟨BitVec.ofNat 8 n0, BitVec.ofNat 8 n1, BitVec.ofNat 8 n2, BitVec.ofNat 8 n3⟩
  simp only [byte_ofNat_toNat _ h0, byte_ofNat_toNat _ h1, byte_ofNat_toNat _ h2, byte_ofNat_toNat _ h3] at h
  split
  · rename_i hn
    rcases h with ⟨_, _, h⟩ | ⟨hc, _⟩
    · exact h
    · exact absurd hn hc
  · rename_i hn
    rcases h with ⟨ha, hb, _⟩ | ⟨_, h⟩
    · exact absurd ⟨ha, hb⟩ hn
    · exact h

/-- The payload bytes the encoder writes decode to the payload, over the decoder's whole range (R33). -/
theorem dec_encodePayload {v : Int} (h₁ : decMin ≤ v) (h₂ : v ≤ decMax) : dec (encodePayload v) = v := by
  unfold decMin at h₁
  unfold decMax at h₂
  unfold encodePayload
  extract_lets m low r e b2
  have hm : m = v.natAbs := rfl
  have hlow : low = if 0 ≤ v then m - 69615 else 0 := rfl
  have hr : r = m - low := rfl
  have he : e = r - 65280 := rfl
  have hb2 : b2 = (e - 240) / 16 := rfl
  clear_value m low r e b2
  by_cases hv : v < 0
  · rw [if_neg (by omega)] at hlow
    simp only [hv, if_true]
    split
    · refine (dec_ofNat (n0 := 8) (n2 := 0) (by omega) (by omega) (by omega) (by omega)).trans ?_
      rw [if_pos (by omega)]
      omega
    · refine (dec_ofNat (n0 := 8) (n1 := 255) (by omega) (by omega) (by omega) (by omega)).trans ?_
      rw [if_pos (by omega)]
      omega
  · rw [if_pos (by omega)] at hlow
    simp only [hv, if_false]
    split
    · refine (dec_ofNat (n0 := 0) (n2 := 0) (by omega) (by omega) (by omega) (by omega)).trans ?_
      rw [if_neg (by omega)]
      omega
    · refine (dec_ofNat (n1 := 255) (by omega) (by omega) (by omega) (by omega)).trans ?_
      rw [if_neg (by omega)]
      omega

theorem payloadOk_dec (q : Quad) : payloadOk (dec q) = true := by
  have h := dec_bounds q
  simp [payloadOk, h.1, h.2]

theorem enc_eq_none_iff (v : Int) : enc v = none ↔ v < -65535 ∨ 65535 < v := by
  unfold enc encMin encMax
  split <;> simp <;> omega

/-- What the encoder gives inside its domain. -/
theorem enc_eq_some {v : Int} {q : Quad} (h : enc v = some q) :
    -65535 ≤ v ∧ v ≤ 65535 ∧ q.b0 = (if v < 0 then 8 else 0) ∧ q.b1.toNat = v.natAbs / 256 ∧ q.b2 = 0 ∧
      q.b3.toNat = v.natAbs % 256 := by
  unfold enc encMin encMax at h
  split at h
  · cases h
  · rename_i hv
    cases h
    refine ⟨by omega, by omega, rfl, byte_ofNat_toNat _ (by omega), rfl, byte_ofNat_toNat _ (by omega)⟩

theorem enc_isSome {v : Int} (h₁ : -65535 ≤ v) (h₂ : v ≤ 65535) : ∃ q, enc v = some q := by
  cases hq : enc v with
  | none => exact absurd ((enc_eq_none_iff v).mp hq) (by omega)
  | some q => exact ⟨q, rfl⟩

/-- The integer value of a wrapped integer that fits a word. -/
theorem toInt_wrap32 {n : Int} (h₁ : -2147483648 ≤ n) (h₂ : n ≤ 2147483647) : (wrap32 n).toInt = n := by
  rw [wrap32, BitVec.toInt_ofInt]
  simp only [Int.bmod_def]
  omega

theorem word_toInt_bounds (w : Word) : -2147483648 ≤ w.toInt ∧ w.toInt ≤ 2147483647 := by
  have h₁ := @BitVec.le_toInt 32 w
  have h₂ := @BitVec.toInt_lt 32 w
  constructor <;> omega

@[simp] theorem wrap32_toInt (w : Word) : wrap32 w.toInt = w := BitVec.ofInt_toInt

/-- A number read from memory keeps its value as a word. -/
theorem toInt_wrap32_dec (q : Quad) : (wrap32 (dec q)).toInt = dec q := by
  have h := dec_bounds q
  unfold decMin decMax at h
  exact toInt_wrap32 (by omega) (by omega)

/-- The word of an input byte is the byte's value. -/
theorem toInt_byteToWord (b : Byte) : (byteToWord b).toInt = b.toNat := by
  have h := byte_lt b
  simp only [byteToWord, zext, BitVec.toInt_eq_toNat_cond, BitVec.toNat_setWidth]
  omega

end Sys2Proof.Machine
end

