-- ==== Sys2Proof/Laws/State.lean ====
section
/-! SUPPORT. What each update of the state does to each field of it, all by definition. -/

namespace Sys2Proof.Machine

variable (s : State)

/-! ### setRamByte -/

@[simp] theorem State.setRamByte_regs (a : Nat) (b : Byte) : (s.setRamByte a b).regs = s.regs := rfl
@[simp] theorem State.setRamByte_flag (a : Nat) (b : Byte) : (s.setRamByte a b).flag = s.flag := rfl
@[simp] theorem State.setRamByte_ram (a : Nat) (b : Byte) : (s.setRamByte a b).ram = s.ram.set a b := rfl
@[simp] theorem State.setRamByte_disk (a : Nat) (b : Byte) : (s.setRamByte a b).disk = s.disk := rfl
@[simp] theorem State.setRamByte_current (a : Nat) (b : Byte) : (s.setRamByte a b).current = s.current := rfl
@[simp] theorem State.setRamByte_callers (a : Nat) (b : Byte) : (s.setRamByte a b).callers = s.callers := rfl
@[simp] theorem State.setRamByte_status (a : Nat) (b : Byte) : (s.setRamByte a b).status = s.status := rfl
@[simp] theorem State.setRamByte_fault (a : Nat) (b : Byte) : (s.setRamByte a b).fault = s.fault := rfl
@[simp] theorem State.setRamByte_cin (a : Nat) (b : Byte) : (s.setRamByte a b).cin = s.cin := rfl
@[simp] theorem State.setRamByte_cout (a : Nat) (b : Byte) : (s.setRamByte a b).cout = s.cout := rfl
@[simp] theorem State.setRamByte_bios (a : Nat) (b : Byte) : (s.setRamByte a b).bios = s.bios := rfl
@[simp] theorem State.setRamByte_ramSize (a : Nat) (b : Byte) : (s.setRamByte a b).ramSize = s.ramSize := rfl
@[simp] theorem State.setRamByte_maxDepth (a : Nat) (b : Byte) : (s.setRamByte a b).maxDepth = s.maxDepth := rfl
@[simp] theorem State.setRamByte_run (a : Nat) (b : Byte) : (s.setRamByte a b).run = s.run := rfl

/-! ### setRamQuad -/

@[simp] theorem State.setRamQuad_regs (a : Nat) (q : Quad) : (s.setRamQuad a q).regs = s.regs := rfl
@[simp] theorem State.setRamQuad_flag (a : Nat) (q : Quad) : (s.setRamQuad a q).flag = s.flag := rfl
@[simp] theorem State.setRamQuad_ram (a : Nat) (q : Quad) :
    (s.setRamQuad a q).ram = (((s.ram.set a q.b0).set (a + 1) q.b1).set (a + 2) q.b2).set (a + 3) q.b3 := rfl
@[simp] theorem State.setRamQuad_disk (a : Nat) (q : Quad) : (s.setRamQuad a q).disk = s.disk := rfl
@[simp] theorem State.setRamQuad_current (a : Nat) (q : Quad) : (s.setRamQuad a q).current = s.current := rfl
@[simp] theorem State.setRamQuad_callers (a : Nat) (q : Quad) : (s.setRamQuad a q).callers = s.callers := rfl
@[simp] theorem State.setRamQuad_status (a : Nat) (q : Quad) : (s.setRamQuad a q).status = s.status := rfl
@[simp] theorem State.setRamQuad_fault (a : Nat) (q : Quad) : (s.setRamQuad a q).fault = s.fault := rfl
@[simp] theorem State.setRamQuad_cin (a : Nat) (q : Quad) : (s.setRamQuad a q).cin = s.cin := rfl
@[simp] theorem State.setRamQuad_cout (a : Nat) (q : Quad) : (s.setRamQuad a q).cout = s.cout := rfl
@[simp] theorem State.setRamQuad_bios (a : Nat) (q : Quad) : (s.setRamQuad a q).bios = s.bios := rfl
@[simp] theorem State.setRamQuad_ramSize (a : Nat) (q : Quad) : (s.setRamQuad a q).ramSize = s.ramSize := rfl
@[simp] theorem State.setRamQuad_maxDepth (a : Nat) (q : Quad) : (s.setRamQuad a q).maxDepth = s.maxDepth := rfl
@[simp] theorem State.setRamQuad_run (a : Nat) (q : Quad) : (s.setRamQuad a q).run = s.run := rfl

/-! ### setReg -/

@[simp] theorem State.setReg_regs (i : Nat) (v : Word) : (s.setReg i v).regs = s.regs.set i v := rfl
@[simp] theorem State.setReg_flag (i : Nat) (v : Word) : (s.setReg i v).flag = s.flag := rfl
@[simp] theorem State.setReg_ram (i : Nat) (v : Word) : (s.setReg i v).ram = s.ram := rfl
@[simp] theorem State.setReg_disk (i : Nat) (v : Word) : (s.setReg i v).disk = s.disk := rfl
@[simp] theorem State.setReg_current (i : Nat) (v : Word) : (s.setReg i v).current = s.current := rfl
@[simp] theorem State.setReg_callers (i : Nat) (v : Word) : (s.setReg i v).callers = s.callers := rfl
@[simp] theorem State.setReg_status (i : Nat) (v : Word) : (s.setReg i v).status = s.status := rfl
@[simp] theorem State.setReg_fault (i : Nat) (v : Word) : (s.setReg i v).fault = s.fault := rfl
@[simp] theorem State.setReg_cin (i : Nat) (v : Word) : (s.setReg i v).cin = s.cin := rfl
@[simp] theorem State.setReg_cout (i : Nat) (v : Word) : (s.setReg i v).cout = s.cout := rfl
@[simp] theorem State.setReg_bios (i : Nat) (v : Word) : (s.setReg i v).bios = s.bios := rfl
@[simp] theorem State.setReg_ramSize (i : Nat) (v : Word) : (s.setReg i v).ramSize = s.ramSize := rfl
@[simp] theorem State.setReg_maxDepth (i : Nat) (v : Word) : (s.setReg i v).maxDepth = s.maxDepth := rfl
@[simp] theorem State.setReg_run (i : Nat) (v : Word) : (s.setReg i v).run = s.run := rfl

/-! ### setFlag -/

@[simp] theorem State.setFlag_regs (v : Word) : (s.setFlag v).regs = s.regs := rfl
@[simp] theorem State.setFlag_flag (v : Word) : (s.setFlag v).flag = v := rfl
@[simp] theorem State.setFlag_ram (v : Word) : (s.setFlag v).ram = s.ram := rfl
@[simp] theorem State.setFlag_disk (v : Word) : (s.setFlag v).disk = s.disk := rfl
@[simp] theorem State.setFlag_current (v : Word) : (s.setFlag v).current = s.current := rfl
@[simp] theorem State.setFlag_callers (v : Word) : (s.setFlag v).callers = s.callers := rfl
@[simp] theorem State.setFlag_status (v : Word) : (s.setFlag v).status = s.status := rfl
@[simp] theorem State.setFlag_fault (v : Word) : (s.setFlag v).fault = s.fault := rfl
@[simp] theorem State.setFlag_cin (v : Word) : (s.setFlag v).cin = s.cin := rfl
@[simp] theorem State.setFlag_cout (v : Word) : (s.setFlag v).cout = s.cout := rfl
@[simp] theorem State.setFlag_bios (v : Word) : (s.setFlag v).bios = s.bios := rfl
@[simp] theorem State.setFlag_ramSize (v : Word) : (s.setFlag v).ramSize = s.ramSize := rfl
@[simp] theorem State.setFlag_maxDepth (v : Word) : (s.setFlag v).maxDepth = s.maxDepth := rfl
@[simp] theorem State.setFlag_run (v : Word) : (s.setFlag v).run = s.run := rfl

/-! ### setPc -/

@[simp] theorem State.setPc_regs (t : Nat) : (s.setPc t).regs = s.regs := rfl
@[simp] theorem State.setPc_flag (t : Nat) : (s.setPc t).flag = s.flag := rfl
@[simp] theorem State.setPc_ram (t : Nat) : (s.setPc t).ram = s.ram := rfl
@[simp] theorem State.setPc_disk (t : Nat) : (s.setPc t).disk = s.disk := rfl
@[simp] theorem State.setPc_current (t : Nat) : (s.setPc t).current = { s.current with pc := t } := rfl
@[simp] theorem State.setPc_callers (t : Nat) : (s.setPc t).callers = s.callers := rfl
@[simp] theorem State.setPc_status (t : Nat) : (s.setPc t).status = s.status := rfl
@[simp] theorem State.setPc_fault (t : Nat) : (s.setPc t).fault = s.fault := rfl
@[simp] theorem State.setPc_cin (t : Nat) : (s.setPc t).cin = s.cin := rfl
@[simp] theorem State.setPc_cout (t : Nat) : (s.setPc t).cout = s.cout := rfl
@[simp] theorem State.setPc_bios (t : Nat) : (s.setPc t).bios = s.bios := rfl
@[simp] theorem State.setPc_ramSize (t : Nat) : (s.setPc t).ramSize = s.ramSize := rfl
@[simp] theorem State.setPc_maxDepth (t : Nat) : (s.setPc t).maxDepth = s.maxDepth := rfl
@[simp] theorem State.setPc_run (t : Nat) : (s.setPc t).run = s.run := rfl

/-! ### advance -/

@[simp] theorem State.advance_regs (n : Nat) : (s.advance n).regs = s.regs := rfl
@[simp] theorem State.advance_flag (n : Nat) : (s.advance n).flag = s.flag := rfl
@[simp] theorem State.advance_ram (n : Nat) : (s.advance n).ram = s.ram := rfl
@[simp] theorem State.advance_disk (n : Nat) : (s.advance n).disk = s.disk := rfl
@[simp] theorem State.advance_current (n : Nat) :
    (s.advance n).current = { s.current with pc := s.current.pc + n } := rfl
@[simp] theorem State.advance_callers (n : Nat) : (s.advance n).callers = s.callers := rfl
@[simp] theorem State.advance_status (n : Nat) : (s.advance n).status = s.status := rfl
@[simp] theorem State.advance_fault (n : Nat) : (s.advance n).fault = s.fault := rfl
@[simp] theorem State.advance_cin (n : Nat) : (s.advance n).cin = s.cin := rfl
@[simp] theorem State.advance_cout (n : Nat) : (s.advance n).cout = s.cout := rfl
@[simp] theorem State.advance_bios (n : Nat) : (s.advance n).bios = s.bios := rfl
@[simp] theorem State.advance_ramSize (n : Nat) : (s.advance n).ramSize = s.ramSize := rfl
@[simp] theorem State.advance_maxDepth (n : Nat) : (s.advance n).maxDepth = s.maxDepth := rfl
@[simp] theorem State.advance_run (n : Nat) : (s.advance n).run = s.run := rfl

/-! ### consoleOut -/

@[simp] theorem State.consoleOut_regs (b : Byte) : (s.consoleOut b).regs = s.regs := rfl
@[simp] theorem State.consoleOut_flag (b : Byte) : (s.consoleOut b).flag = s.flag := rfl
@[simp] theorem State.consoleOut_ram (b : Byte) : (s.consoleOut b).ram = s.ram := rfl
@[simp] theorem State.consoleOut_disk (b : Byte) : (s.consoleOut b).disk = s.disk := rfl
@[simp] theorem State.consoleOut_current (b : Byte) : (s.consoleOut b).current = s.current := rfl
@[simp] theorem State.consoleOut_callers (b : Byte) : (s.consoleOut b).callers = s.callers := rfl
@[simp] theorem State.consoleOut_status (b : Byte) : (s.consoleOut b).status = s.status := rfl
@[simp] theorem State.consoleOut_fault (b : Byte) : (s.consoleOut b).fault = s.fault := rfl
@[simp] theorem State.consoleOut_cin (b : Byte) : (s.consoleOut b).cin = s.cin := rfl
@[simp] theorem State.consoleOut_cout (b : Byte) : (s.consoleOut b).cout = s.cout ++ [b] := rfl
@[simp] theorem State.consoleOut_bios (b : Byte) : (s.consoleOut b).bios = s.bios := rfl
@[simp] theorem State.consoleOut_ramSize (b : Byte) : (s.consoleOut b).ramSize = s.ramSize := rfl
@[simp] theorem State.consoleOut_maxDepth (b : Byte) : (s.consoleOut b).maxDepth = s.maxDepth := rfl
@[simp] theorem State.consoleOut_run (b : Byte) : (s.consoleOut b).run = s.run := rfl

/-! ### pushFrame -/

@[simp] theorem State.pushFrame_regs (o n : Nat) : (s.pushFrame o n).regs = s.regs := rfl
@[simp] theorem State.pushFrame_flag (o n : Nat) : (s.pushFrame o n).flag = s.flag := rfl
@[simp] theorem State.pushFrame_ram (o n : Nat) : (s.pushFrame o n).ram = s.ram := rfl
@[simp] theorem State.pushFrame_disk (o n : Nat) : (s.pushFrame o n).disk = s.disk := rfl
@[simp] theorem State.pushFrame_current (o n : Nat) :
    (s.pushFrame o n).current = { space := .ram, base := o, len := n, pc := 0 } := rfl
@[simp] theorem State.pushFrame_callers (o n : Nat) : (s.pushFrame o n).callers = s.current :: s.callers := rfl
@[simp] theorem State.pushFrame_status (o n : Nat) : (s.pushFrame o n).status = s.status := rfl
@[simp] theorem State.pushFrame_fault (o n : Nat) : (s.pushFrame o n).fault = s.fault := rfl
@[simp] theorem State.pushFrame_cin (o n : Nat) : (s.pushFrame o n).cin = s.cin := rfl
@[simp] theorem State.pushFrame_cout (o n : Nat) : (s.pushFrame o n).cout = s.cout := rfl
@[simp] theorem State.pushFrame_bios (o n : Nat) : (s.pushFrame o n).bios = s.bios := rfl
@[simp] theorem State.pushFrame_ramSize (o n : Nat) : (s.pushFrame o n).ramSize = s.ramSize := rfl
@[simp] theorem State.pushFrame_maxDepth (o n : Nat) : (s.pushFrame o n).maxDepth = s.maxDepth := rfl
@[simp] theorem State.pushFrame_run (o n : Nat) : (s.pushFrame o n).run = s.run := rfl

/-! ### raise -/

@[simp] theorem State.raise_regs (e : Cause) : (s.raise e).regs = s.regs := rfl
@[simp] theorem State.raise_flag (e : Cause) : (s.raise e).flag = s.flag := rfl
@[simp] theorem State.raise_ram (e : Cause) : (s.raise e).ram = s.ram := rfl
@[simp] theorem State.raise_disk (e : Cause) : (s.raise e).disk = s.disk := rfl
@[simp] theorem State.raise_current (e : Cause) : (s.raise e).current = s.current := rfl
@[simp] theorem State.raise_callers (e : Cause) : (s.raise e).callers = s.callers := rfl
@[simp] theorem State.raise_status (e : Cause) : (s.raise e).status = .faulted := rfl
@[simp] theorem State.raise_fault (e : Cause) :
    (s.raise e).fault =
      some { code := e.code, info := e.info, depth := s.depth, pc := s.current.pc, space := s.current.space, base := s.current.base } := rfl
@[simp] theorem State.raise_cin (e : Cause) : (s.raise e).cin = s.cin := rfl
@[simp] theorem State.raise_cout (e : Cause) : (s.raise e).cout = s.cout := rfl
@[simp] theorem State.raise_bios (e : Cause) : (s.raise e).bios = s.bios := rfl
@[simp] theorem State.raise_ramSize (e : Cause) : (s.raise e).ramSize = s.ramSize := rfl
@[simp] theorem State.raise_maxDepth (e : Cause) : (s.raise e).maxDepth = s.maxDepth := rfl
@[simp] theorem State.raise_run (e : Cause) : (s.raise e).run = s.run := rfl

/-! ### supplyInput -/

@[simp] theorem State.supplyInput_regs (bs : List Byte) : (s.supplyInput bs).regs = s.regs := rfl
@[simp] theorem State.supplyInput_flag (bs : List Byte) : (s.supplyInput bs).flag = s.flag := rfl
@[simp] theorem State.supplyInput_ram (bs : List Byte) : (s.supplyInput bs).ram = s.ram := rfl
@[simp] theorem State.supplyInput_disk (bs : List Byte) : (s.supplyInput bs).disk = s.disk := rfl
@[simp] theorem State.supplyInput_current (bs : List Byte) : (s.supplyInput bs).current = s.current := rfl
@[simp] theorem State.supplyInput_callers (bs : List Byte) : (s.supplyInput bs).callers = s.callers := rfl
@[simp] theorem State.supplyInput_status (bs : List Byte) : (s.supplyInput bs).status = s.status := rfl
@[simp] theorem State.supplyInput_fault (bs : List Byte) : (s.supplyInput bs).fault = s.fault := rfl
@[simp] theorem State.supplyInput_cin (bs : List Byte) : (s.supplyInput bs).cin = s.cin ++ bs := rfl
@[simp] theorem State.supplyInput_cout (bs : List Byte) : (s.supplyInput bs).cout = s.cout := rfl
@[simp] theorem State.supplyInput_bios (bs : List Byte) : (s.supplyInput bs).bios = s.bios := rfl
@[simp] theorem State.supplyInput_ramSize (bs : List Byte) : (s.supplyInput bs).ramSize = s.ramSize := rfl
@[simp] theorem State.supplyInput_maxDepth (bs : List Byte) : (s.supplyInput bs).maxDepth = s.maxDepth := rfl
@[simp] theorem State.supplyInput_run (bs : List Byte) : (s.supplyInput bs).run = s.run := rfl

/-! ### withFetchWord -/

@[simp] theorem State.withFetchWord_regs (nbits w : Nat) : (s.withFetchWord nbits w).regs = s.regs := rfl
@[simp] theorem State.withFetchWord_flag (nbits w : Nat) : (s.withFetchWord nbits w).flag = s.flag := rfl
@[simp] theorem State.withFetchWord_ram (nbits w : Nat) : (s.withFetchWord nbits w).ram = s.ram := rfl
@[simp] theorem State.withFetchWord_disk (nbits w : Nat) : (s.withFetchWord nbits w).disk = s.disk := rfl
@[simp] theorem State.withFetchWord_current (nbits w : Nat) :
    (s.withFetchWord nbits w).current = Frame.topLevel (tableBytes nbits w).length := rfl
@[simp] theorem State.withFetchWord_callers (nbits w : Nat) : (s.withFetchWord nbits w).callers = [] := rfl
@[simp] theorem State.withFetchWord_status (nbits w : Nat) : (s.withFetchWord nbits w).status = .running := rfl
@[simp] theorem State.withFetchWord_fault (nbits w : Nat) : (s.withFetchWord nbits w).fault = none := rfl
@[simp] theorem State.withFetchWord_cin (nbits w : Nat) : (s.withFetchWord nbits w).cin = s.cin := rfl
@[simp] theorem State.withFetchWord_cout (nbits w : Nat) : (s.withFetchWord nbits w).cout = s.cout := rfl
@[simp] theorem State.withFetchWord_bios (nbits w : Nat) : (s.withFetchWord nbits w).bios = tableBytes nbits w := rfl
@[simp] theorem State.withFetchWord_ramSize (nbits w : Nat) : (s.withFetchWord nbits w).ramSize = s.ramSize := rfl
@[simp] theorem State.withFetchWord_maxDepth (nbits w : Nat) : (s.withFetchWord nbits w).maxDepth = s.maxDepth := rfl
@[simp] theorem State.withFetchWord_run (nbits w : Nat) : (s.withFetchWord nbits w).run = s.run := rfl

/-! ### endFrame, whose two cases are by the callers -/

theorem State.endFrame_top (why : HaltReason) (h : s.callers = []) :
    s.endFrame why = { s with status := .halted why } := by
  simp [State.endFrame, h]

theorem State.endFrame_nested (why : HaltReason) {f : Frame} {rest : List Frame} (h : s.callers = f :: rest) :
    s.endFrame why = { s with current := f, callers := rest } := by
  simp [State.endFrame, h]

@[simp] theorem State.endFrame_regs (why : HaltReason) : (s.endFrame why).regs = s.regs := by
  unfold State.endFrame; split <;> rfl
@[simp] theorem State.endFrame_flag (why : HaltReason) : (s.endFrame why).flag = s.flag := by
  unfold State.endFrame; split <;> rfl
@[simp] theorem State.endFrame_ram (why : HaltReason) : (s.endFrame why).ram = s.ram := by
  unfold State.endFrame; split <;> rfl
@[simp] theorem State.endFrame_disk (why : HaltReason) : (s.endFrame why).disk = s.disk := by
  unfold State.endFrame; split <;> rfl
@[simp] theorem State.endFrame_fault (why : HaltReason) : (s.endFrame why).fault = s.fault := by
  unfold State.endFrame; split <;> rfl
@[simp] theorem State.endFrame_cin (why : HaltReason) : (s.endFrame why).cin = s.cin := by
  unfold State.endFrame; split <;> rfl
@[simp] theorem State.endFrame_cout (why : HaltReason) : (s.endFrame why).cout = s.cout := by
  unfold State.endFrame; split <;> rfl
@[simp] theorem State.endFrame_bios (why : HaltReason) : (s.endFrame why).bios = s.bios := by
  unfold State.endFrame; split <;> rfl
@[simp] theorem State.endFrame_ramSize (why : HaltReason) : (s.endFrame why).ramSize = s.ramSize := by
  unfold State.endFrame; split <;> rfl
@[simp] theorem State.endFrame_maxDepth (why : HaltReason) : (s.endFrame why).maxDepth = s.maxDepth := by
  unfold State.endFrame; split <;> rfl
@[simp] theorem State.endFrame_run (why : HaltReason) : (s.endFrame why).run = s.run := by
  unfold State.endFrame; split <;> rfl

/-! ### launch and reset -/

variable (cfg : Config) (run : Nat) (bios disk cin : List Byte)

@[simp] theorem State.launch_regs : (State.launch cfg run bios disk cin).regs = List.replicate cfg.nregs 0 := rfl
@[simp] theorem State.launch_flag : (State.launch cfg run bios disk cin).flag = 0 := rfl
@[simp] theorem State.launch_ram : (State.launch cfg run bios disk cin).ram = [] := rfl
@[simp] theorem State.launch_disk : (State.launch cfg run bios disk cin).disk = disk := rfl
@[simp] theorem State.launch_current : (State.launch cfg run bios disk cin).current = Frame.topLevel bios.length := rfl
@[simp] theorem State.launch_callers : (State.launch cfg run bios disk cin).callers = [] := rfl
@[simp] theorem State.launch_status : (State.launch cfg run bios disk cin).status = .running := rfl
@[simp] theorem State.launch_fault : (State.launch cfg run bios disk cin).fault = none := rfl
@[simp] theorem State.launch_cin : (State.launch cfg run bios disk cin).cin = cin := rfl
@[simp] theorem State.launch_cout : (State.launch cfg run bios disk cin).cout = [] := rfl
@[simp] theorem State.launch_bios : (State.launch cfg run bios disk cin).bios = bios := rfl
@[simp] theorem State.launch_ramSize : (State.launch cfg run bios disk cin).ramSize = cfg.ramSize := rfl
@[simp] theorem State.launch_maxDepth : (State.launch cfg run bios disk cin).maxDepth = cfg.maxDepth := rfl
@[simp] theorem State.launch_run : (State.launch cfg run bios disk cin).run = run := rfl

end Sys2Proof.Machine
end

