-- ==== Sys2Proof/Laws/Memory.lean ====
section
/-! SUPPORT. RAM as a list of cells: a read after a write, and the canonical form every operation keeps. -/

namespace Sys2Proof.Machine

@[simp] theorem Memory.get_nil (a : Nat) : Memory.get [] a = none := rfl

theorem Memory.get_cons (k : Nat) (b : Byte) (rest : Memory) (a : Nat) :
    Memory.get ((k, b) :: rest) a = if a = k then some b else Memory.get rest a := rfl

theorem Memory.set_cons (k : Nat) (c : Byte) (rest : Memory) (a : Nat) (b : Byte) :
    Memory.set ((k, c) :: rest) a b =
      if a < k then (a, b) :: (k, c) :: rest
      else if a = k then (a, b) :: rest
      else (k, c) :: Memory.set rest a b := rfl

@[simp] theorem Memory.wf_nil : Memory.wf [] = true := rfl

theorem Memory.wf_cons (k : Nat) (b : Byte) (rest : Memory) :
    Memory.wf ((k, b) :: rest) = true ↔ (∀ cell ∈ rest, k < cell.1) ∧ Memory.wf rest = true := by
  simp [Memory.wf, List.all_eq_true]

/-- A read after a write, whatever the form of the list. -/
theorem Memory.get_set (m : Memory) (a x : Nat) (b : Byte) :
    Memory.get (Memory.set m a b) x = if x = a then some b else Memory.get m x := by
  induction m with
  | nil => rfl
  | cons cell rest ih =>
    obtain ⟨k, c⟩ := cell
    rw [Memory.set_cons]
    split
    · rfl
    · split
      · rename_i h
        subst h
        simp only [Memory.get_cons]
        split <;> rfl
      · rename_i h₁ h₂
        simp only [Memory.get_cons, ih]
        split
        · rename_i h
          rw [if_neg (by omega)]
        · rfl

/-- Every cell after a write was there before or is the one written. -/
theorem Memory.mem_set (m : Memory) (a : Nat) (b : Byte) (cell : Host.Cell) (h : cell ∈ Memory.set m a b) :
    cell = (a, b) ∨ cell ∈ m := by
  induction m with
  | nil => simpa [Memory.set] using h
  | cons head rest ih =>
    obtain ⟨k, c⟩ := head
    rw [Memory.set_cons] at h
    split at h
    · simpa using h
    · split at h
      · rcases List.mem_cons.mp h with h | h
        · exact .inl h
        · exact .inr (List.mem_cons_of_mem _ h)
      · rcases List.mem_cons.mp h with h | h
        · exact .inr (h ▸ List.mem_cons_self)
        · exact (ih h).imp_right (List.mem_cons_of_mem _)

/-- A write keeps the canonical form. -/
theorem Memory.wf_set (m : Memory) (a : Nat) (b : Byte) (h : Memory.wf m = true) :
    Memory.wf (Memory.set m a b) = true := by
  induction m with
  | nil => rfl
  | cons head rest ih =>
    obtain ⟨k, c⟩ := head
    obtain ⟨hk, hr⟩ := (Memory.wf_cons k c rest).mp h
    rw [Memory.set_cons]
    split
    · rename_i hak
      refine (Memory.wf_cons a b _).mpr ⟨fun cell hc => ?_, h⟩
      rcases List.mem_cons.mp hc with rfl | hc
      · exact hak
      · exact hak.trans (hk cell hc)
    · split
      · rename_i hak
        subst hak
        exact (Memory.wf_cons a b rest).mpr ⟨hk, hr⟩
      · refine (Memory.wf_cons k c _).mpr ⟨fun cell hc => ?_, ih hr⟩
        rcases Memory.mem_set rest a b cell hc with rfl | hc
        · show k < a
          omega
        · exact hk cell hc

/-- The address read is below every cell of a canonical tail, so nothing is written there. -/
theorem Memory.get_eq_none_of_lt (m : Memory) (a : Nat) (h : ∀ cell ∈ m, a < cell.1) : Memory.get m a = none := by
  induction m with
  | nil => rfl
  | cons head rest ih =>
    obtain ⟨k, c⟩ := head
    have hk : a < k := h (k, c) List.mem_cons_self
    rw [Memory.get_cons, if_neg (by omega)]
    exact ih fun cell hc => h cell (List.mem_cons_of_mem _ hc)

/-- Equal memories are equal data: two canonical lists with the same written bytes are the same list. -/
theorem Memory.ext_of_wf (m m' : Memory) (h : Memory.wf m = true) (h' : Memory.wf m' = true)
    (hget : ∀ a, Memory.get m a = Memory.get m' a) : m = m' := by
  induction m generalizing m' with
  | nil =>
    cases m' with
    | nil => rfl
    | cons head rest =>
      obtain ⟨k, c⟩ := head
      simpa [Memory.get_cons] using hget k
  | cons head rest ih =>
    obtain ⟨k, c⟩ := head
    obtain ⟨hk, hr⟩ := (Memory.wf_cons k c rest).mp h
    cases m' with
    | nil => simpa [Memory.get_cons] using hget k
    | cons head' rest' =>
      obtain ⟨k', c'⟩ := head'
      obtain ⟨hk', hr'⟩ := (Memory.wf_cons k' c' rest').mp h'
      have hkk : k = k' := by
        rcases Nat.lt_trichotomy k k' with hlt | heq | hgt
        · have hn := Memory.get_eq_none_of_lt ((k', c') :: rest') k fun cell hc => by
            rcases List.mem_cons.mp hc with rfl | hc
            · exact hlt
            · exact hlt.trans (hk' cell hc)
          have := hget k
          rw [hn, Memory.get_cons, if_pos rfl] at this
          cases this
        · exact heq
        · have hn := Memory.get_eq_none_of_lt ((k, c) :: rest) k' fun cell hc => by
            rcases List.mem_cons.mp hc with rfl | hc
            · exact hgt
            · exact hgt.trans (hk cell hc)
          have := hget k'
          rw [hn, Memory.get_cons, if_pos rfl] at this
          cases this
      subst hkk
      have hc : c = c' := by
        have := hget k
        simpa [Memory.get_cons] using this
      subst hc
      congr 1
      refine ih rest' hr hr' fun a => ?_
      have := hget a
      simp only [Memory.get_cons] at this
      by_cases ha : a = k
      · subst ha
        rw [Memory.get_eq_none_of_lt rest a hk, Memory.get_eq_none_of_lt rest' a hk']
      · simpa [ha] using this

/-- The four writes of a number keep the canonical form. -/
theorem State.setRamQuad_wf (s : State) (a : Nat) (q : Quad) (h : s.ram.wf = true) :
    (s.setRamQuad a q).ram.wf = true :=
  Memory.wf_set _ _ _ (Memory.wf_set _ _ _ (Memory.wf_set _ _ _ (Memory.wf_set _ _ _ h)))

/-- The four writes of a number inside RAM leave every cell inside RAM. -/
theorem State.setRamQuad_bounds (s : State) (a n : Nat) (q : Quad) (h : ∀ cell ∈ s.ram, cell.1 < n) (ha : a + 4 ≤ n) :
    ∀ cell ∈ (s.setRamQuad a q).ram, cell.1 < n := by
  intro cell hc
  rw [State.setRamQuad_ram] at hc
  rcases Memory.mem_set _ _ _ _ hc with rfl | hc
  · show a + 3 < n
    omega
  rcases Memory.mem_set _ _ _ _ hc with rfl | hc
  · show a + 2 < n
    omega
  rcases Memory.mem_set _ _ _ _ hc with rfl | hc
  · show a + 1 < n
    omega
  rcases Memory.mem_set _ _ _ _ hc with rfl | hc
  · show a < n
    omega
  exact h cell hc

/-- Every byte of RAM after a number is written: the four bytes at its address, and no other changes (R41). -/
theorem State.ramByte_setRamQuad (s : State) (a x : Nat) (q : Quad) :
    (s.setRamQuad a q).ramByte x =
      if x = a + 3 then q.b3 else if x = a + 2 then q.b2 else if x = a + 1 then q.b1
      else if x = a then q.b0 else s.ramByte x := by
  simp only [State.ramByte, State.setRamQuad_ram, State.setRamQuad_run, Memory.get_set]
  split
  · rfl
  split
  · rfl
  split
  · rfl
  split <;> rfl

/-- Reading back the bytes of a number just written. -/
@[simp] theorem State.ramQuad_setRamQuad (s : State) (a : Nat) (q : Quad) : (s.setRamQuad a q).ramQuad a = q := by
  simp [State.ramQuad, State.ramByte_setRamQuad]

theorem State.ramByte_setRamQuad_outside (s : State) (a x : Nat) (q : Quad) (h : x < a ∨ a + 4 ≤ x) :
    (s.setRamQuad a q).ramByte x = s.ramByte x := by
  rw [State.ramByte_setRamQuad, if_neg (by omega), if_neg (by omega), if_neg (by omega), if_neg (by omega)]

/-- RAM is read through its list and the run's number alone. -/
theorem State.ramByte_congr {s t : State} (hram : t.ram = s.ram) (hrun : t.run = s.run) (a : Nat) :
    t.ramByte a = s.ramByte a := by
  rw [State.ramByte, State.ramByte, hram, hrun]

theorem State.ramQuad_congr {s t : State} (hram : t.ram = s.ram) (hrun : t.run = s.run) (a : Nat) :
    t.ramQuad a = s.ramQuad a := by
  simp only [State.ramQuad, State.ramByte_congr hram hrun]

/-- Registers after a register is written. -/
theorem State.reg_setReg (s : State) (i j : Nat) (v : Word) :
    (s.setReg i v).reg j = if i = j ∧ i < s.nregs then v else s.reg j := by
  simp only [State.reg, State.setReg_regs, State.nregs, List.getD_eq_getElem?_getD, List.getElem?_set]
  split
  · rename_i h
    subst h
    split
    · simp [*]
    · rename_i h
      simp [h]
  · rename_i h
    simp [h]

@[simp] theorem State.reg_setReg_self (s : State) (i : Nat) (v : Word) (h : i < s.nregs) :
    (s.setReg i v).reg i = v := by
  rw [State.reg_setReg, if_pos ⟨rfl, h⟩]

theorem State.reg_setReg_other (s : State) (i j : Nat) (v : Word) (h : i ≠ j) :
    (s.setReg i v).reg j = s.reg j := by
  rw [State.reg_setReg, if_neg fun h' => h h'.1]

/-- Disk bytes after the four bytes of a number are written. -/
theorem diskByte_set (d : List Byte) (i x : Nat) (b : Byte) :
    (d.set i b).getD x 0 = if i = x ∧ i < d.length then b else d.getD x 0 := by
  simp only [List.getD_eq_getElem?_getD, List.getElem?_set]
  split
  · rename_i h
    subst h
    split
    · simp [*]
    · rename_i h
      simp [h]
  · rename_i h
    simp [h]

end Sys2Proof.Machine
end

