-- ==== Sys2Proof/Laws/Ops.lean ====
section
/-! SUPPORT. What each shared operation can do, said once: the bounds checks, the stores, the end of a frame, the
conditional statement, the fetch. -/

namespace Sys2Proof.Machine

/-- A body in sequence completes exactly when both parts do. -/
theorem except_bind_ok {ε α β : Type} {x : Except ε α} {f : α → Except ε β} {b : β} :
    (x >>= f) = .ok b ↔ ∃ a, x = .ok a ∧ f a = .ok b := by
  cases x with
  | error e => exact ⟨fun h => (nomatch h), fun ⟨_, h, _⟩ => (nomatch h)⟩
  | ok a => exact ⟨fun h => ⟨a, rfl, h⟩, fun ⟨_, h, h'⟩ => by cases h; exact h'⟩

/-- A body in sequence raises what its first part raises, else what the second part raises. -/
theorem except_bind_error {ε α β : Type} {x : Except ε α} {f : α → Except ε β} {e : ε} :
    (x >>= f) = .error e ↔ x = .error e ∨ ∃ a, x = .ok a ∧ f a = .error e := by
  cases x with
  | error e' => exact ⟨fun h => .inl (by cases h; rfl), fun h => h.elim (fun h => by cases h; rfl) fun ⟨_, h, _⟩ => nomatch h⟩
  | ok a => exact ⟨fun h => .inr ⟨a, rfl, h⟩, fun h => h.elim (nomatch ·) fun ⟨_, h, h'⟩ => by cases h; exact h'⟩

@[simp] theorem except_ok_bind {ε α β : Type} (a : α) (f : α → Except ε β) :
    ((Except.ok a : Except ε α) >>= f) = f a := rfl

@[simp] theorem except_error_bind {ε α β : Type} (e : ε) (f : α → Except ε β) :
    ((Except.error e : Except ε α) >>= f) = .error e := rfl

theorem State.ramSpan_ok_iff {s : State} {a n : Int} {k : Nat} :
    s.ramSpan a n = .ok k ↔ 0 ≤ a ∧ a + n ≤ s.ramSize ∧ k = a.toNat := by
  unfold State.ramSpan
  split
  · simp only [reduceCtorEq, false_iff, not_and]
    omega
  · simp only [Except.ok.injEq]
    omega

theorem State.ramSpan_error {s : State} {a n : Int} {e : Cause} (h : s.ramSpan a n = .error e) :
    e = .ramOutOfRange a ∧ (a < 0 ∨ a + n > s.ramSize) := by
  unfold State.ramSpan at h
  split at h
  · rename_i hb
    cases h
    exact ⟨rfl, hb⟩
  · cases h

theorem State.diskSpan_ok_iff {s : State} {o : Int} {k : Nat} :
    s.diskSpan o = .ok k ↔ 0 ≤ o ∧ o + 4 ≤ s.disk.length ∧ k = o.toNat := by
  unfold State.diskSpan
  split
  · simp only [reduceCtorEq, false_iff, not_and]
    omega
  · simp only [Except.ok.injEq]
    omega

theorem State.diskSpan_error {s : State} {o : Int} {e : Cause} (h : s.diskSpan o = .error e) :
    e = .diskOutOfRange o ∧ (o < 0 ∨ o + 4 > s.disk.length) := by
  unfold State.diskSpan at h
  split at h
  · rename_i hb
    cases h
    exact ⟨rfl, hb⟩
  · cases h

/-- A number store that completes wrote the encoder's bytes. -/
theorem State.numWrite_ok {s t : State} {a : Nat} {v : Word} (h : s.numWrite a v = .ok t) :
    ∃ q, enc v.toInt = some q ∧ t = s.setRamQuad a q := by
  unfold State.numWrite at h
  split at h
  · cases h
  · rename_i q hq
    cases h
    exact ⟨q, hq, rfl⟩

theorem State.numWrite_of_enc {s : State} {a : Nat} {v : Word} {q : Quad} (h : enc v.toInt = some q) :
    s.numWrite a v = .ok (s.setRamQuad a q) := by
  simp [State.numWrite, h]

theorem State.numWrite_error {s : State} {a : Nat} {v : Word} {e : Cause} (h : s.numWrite a v = .error e) :
    e = .encodeRange v.toInt ∧ enc v.toInt = none := by
  unfold State.numWrite at h
  split at h
  · rename_i hq
    cases h
    exact ⟨rfl, hq⟩
  · cases h

/-- A disk store that completes wrote the encoder's bytes. -/
theorem State.diskNumWrite_ok {s t : State} {a : Nat} {v : Word} (h : s.diskNumWrite a v = .ok t) :
    ∃ q, enc v.toInt = some q ∧
      t = { s with disk := (((s.disk.set a q.b0).set (a + 1) q.b1).set (a + 2) q.b2).set (a + 3) q.b3 } := by
  unfold State.diskNumWrite at h
  split at h
  · cases h
  · rename_i q hq
    cases h
    exact ⟨q, hq, rfl⟩

theorem State.diskNumWrite_error {s : State} {a : Nat} {v : Word} {e : Cause} (h : s.diskNumWrite a v = .error e) :
    e = .encodeRange v.toInt ∧ enc v.toInt = none := by
  unfold State.diskNumWrite at h
  split at h
  · rename_i hq
    cases h
    exact ⟨rfl, hq⟩
  · cases h

theorem State.consoleIn_some {s s' : State} {b : Byte} (h : s.consoleIn = some (b, s')) :
    s.cin = b :: s'.cin ∧ s' = { s with cin := s'.cin } := by
  unfold State.consoleIn at h
  split at h
  · cases h
  · rename_i b' rest hc
    cases h
    exact ⟨hc, rfl⟩

theorem State.consoleIn_none {s : State} (h : s.consoleIn = none) : s.cin = [] := by
  unfold State.consoleIn at h
  split at h
  · rename_i hc
    exact hc
  · cases h

/-- Everything the end of a frame can do (R91, R161). -/
theorem State.endFrame_cases (s : State) (why : HaltReason) :
    (s.callers = [] ∧ s.endFrame why = { s with status := .halted why }) ∨
      ∃ f rest, s.callers = f :: rest ∧ s.endFrame why = { s with current := f, callers := rest } := by
  match hc : s.callers with
  | [] => exact .inl ⟨rfl, by simp [State.endFrame, hc]⟩
  | f :: rest => exact .inr ⟨f, rest, rfl, s.endFrame_nested why hc⟩

/-- Everything a statement can do: be skipped, complete its body, or raise (R97, R98, R184). -/
theorem State.conditional_cases {s t : State} {c : Cond} {n : Nat} {body : Body}
    (h : s.conditional c n body = .next t) :
    (c.holds s.flag = false ∧ t = s.advance n) ∨
      (c.holds s.flag = true ∧ body = .ok t) ∨
      (c.holds s.flag = true ∧ ∃ e, body = .error e ∧ t = s.raise e) := by
  unfold State.conditional at h
  split at h
  · rename_i hc
    split at h
    · cases h
      exact .inr (.inl ⟨hc, rfl⟩)
    · cases h
      exact .inr (.inr ⟨hc, _, rfl, rfl⟩)
  · rename_i hc
    cases h
    exact .inl ⟨by simpa using hc, rfl⟩

/-- A statement always answers a next state. -/
theorem State.conditional_next (s : State) (c : Cond) (n : Nat) (body : Body) :
    ∃ t, s.conditional c n body = .next t := by
  unfold State.conditional
  split
  · split <;> exact ⟨_, rfl⟩
  · exact ⟨_, rfl⟩

theorem State.conditional_ok {s t : State} {c : Cond} {n : Nat} {body : Body} (hc : c.holds s.flag = true)
    (hb : body = .ok t) : s.conditional c n body = .next t := by
  simp [State.conditional, hc, hb]

theorem State.conditional_error {s : State} {c : Cond} {n : Nat} {body : Body} {e : Cause}
    (hc : c.holds s.flag = true) (hb : body = .error e) : s.conditional c n body = .next (s.raise e) := by
  simp [State.conditional, hc, hb]

theorem State.conditional_skip {s : State} {c : Cond} {n : Nat} {body : Body} (hc : c.holds s.flag = false) :
    s.conditional c n body = .next (s.advance n) := by
  simp [State.conditional, hc]

/-- Bytes fetched from a stream: as many as asked for, each the stream's byte at its offset. -/
theorem State.streamBytes_ok {s : State} {n i : Nat} {bs : List Byte} (h : s.streamBytes n i = .ok bs) :
    bs.length = n ∧ ∀ k, k < n → s.streamByte (i + k) = bs[k]? := by
  induction n generalizing i bs with
  | zero =>
    cases h
    exact ⟨rfl, fun k hk => by omega⟩
  | succ n ih =>
    unfold State.streamBytes at h
    split at h
    · cases h
    · rename_i b hb
      split at h
      · rename_i rest hr
        cases h
        obtain ⟨hlen, hget⟩ := ih hr
        refine ⟨by simp [hlen], fun k hk => ?_⟩
        cases k with
        | zero => simpa using hb
        | succ k =>
          have := hget k (by omega)
          rw [show i + (k + 1) = i + 1 + k by omega, this]
          simp
      · cases h

/-- Bytes that exist are fetched. -/
theorem State.streamBytes_isOk {s : State} {n i : Nat} (h : ∀ k, k < n → s.streamByte (i + k) ≠ none) :
    ∃ bs, s.streamBytes n i = .ok bs := by
  induction n generalizing i with
  | zero => exact ⟨[], rfl⟩
  | succ n ih =>
    obtain ⟨rest, hr⟩ := ih (i := i + 1) fun k hk => by
      have := h (k + 1) (by omega)
      rwa [show i + (k + 1) = i + 1 + k by omega] at this
    cases hb : s.streamByte i with
    | none => exact absurd hb (by simpa using h 0 (by omega))
    | some b => exact ⟨b :: rest, by simp [State.streamBytes, hb, hr]⟩

end Sys2Proof.Machine
end

