-- ==== Sys2Proof/Laws/Operands.lean ====
section
/-! SUPPORT. What the Addressing Resolver can do: each mode's result, the locations a destination can be, and what a
store changes. -/

namespace Sys2Proof.Machine

theorem State.regIndex_ok_iff {s : State} {p : Int} {i : Nat} :
    s.regIndex p = .ok i ↔ 0 ≤ p ∧ p < s.nregs ∧ i = p.toNat := by
  unfold State.regIndex
  split
  · simp only [reduceCtorEq, false_iff, not_and]
    omega
  · simp only [Except.ok.injEq]
    omega

theorem State.regIndex_error {s : State} {p : Int} {e : Cause} (h : s.regIndex p = .error e) :
    e = .badRegister p ∧ (p < 0 ∨ p ≥ s.nregs) := by
  unfold State.regIndex at h
  split at h
  · rename_i hb
    cases h
    exact ⟨rfl, hb⟩
  · cases h

/-- The locations of R100: an index of the register file, four bytes inside RAM, or a constant. -/
def State.LocationOk (s : State) (l : Location) : Prop :=
  match l with
  | .reg i => i < s.nregs
  | .ram a => a + 4 ≤ s.ramSize
  | .const _ => True

/-- Everything a resolved operand can be, mode by mode (R101). -/
theorem State.resolve_ok {s : State} {o : Operand} {l : Location} (h : s.resolve o = .ok l) :
    (∃ p : Int, o = .register p ∧ 0 ≤ p ∧ p < s.nregs ∧ l = .reg p.toNat) ∨
      (∃ p : Int, o = .registerValue p ∧ 0 ≤ p ∧ p < s.nregs ∧ 0 ≤ (s.reg p.toNat).toInt ∧
        (s.reg p.toNat).toInt + 4 ≤ s.ramSize ∧ l = .ram (s.reg p.toNat).toInt.toNat) ∨
      (∃ p : Int, o = .pointer p ∧ 0 ≤ p ∧ p + 4 ≤ s.ramSize ∧ l = .ram p.toNat) ∨
      (∃ p : Int, o = .constant p ∧ l = .const (wrap32 p)) := by
  cases o with
  | register p =>
    obtain ⟨i, hi, hl⟩ := except_bind_ok.mp h
    obtain ⟨h₀, h₁, rfl⟩ := State.regIndex_ok_iff.mp hi
    cases hl
    exact .inl ⟨p, rfl, h₀, h₁, rfl⟩
  | registerValue p =>
    obtain ⟨i, hi, hl⟩ := except_bind_ok.mp h
    obtain ⟨h₀, h₁, rfl⟩ := State.regIndex_ok_iff.mp hi
    obtain ⟨a, ha, hl⟩ := except_bind_ok.mp hl
    obtain ⟨h₂, h₃, rfl⟩ := State.ramSpan_ok_iff.mp ha
    cases hl
    exact .inr (.inl ⟨p, rfl, h₀, h₁, h₂, h₃, rfl⟩)
  | pointer p =>
    obtain ⟨a, ha, hl⟩ := except_bind_ok.mp h
    obtain ⟨h₂, h₃, rfl⟩ := State.ramSpan_ok_iff.mp ha
    cases hl
    exact .inr (.inr (.inl ⟨p, rfl, h₂, h₃, rfl⟩))
  | constant p =>
    cases h
    exact .inr (.inr (.inr ⟨p, rfl, rfl⟩))
  | invalid tag => cases h

/-- Everything the resolution of an operand can raise, mode by mode (R101). -/
theorem State.resolve_error {s : State} {o : Operand} {e : Cause} (h : s.resolve o = .error e) :
    (∃ p : Int, (o = .register p ∨ o = .registerValue p) ∧ (p < 0 ∨ p ≥ s.nregs) ∧ e = .badRegister p) ∨
      (∃ p : Int, o = .registerValue p ∧ 0 ≤ p ∧ p < s.nregs ∧
        ((s.reg p.toNat).toInt < 0 ∨ (s.reg p.toNat).toInt + 4 > s.ramSize) ∧
        e = .ramOutOfRange (s.reg p.toNat).toInt) ∨
      (∃ p : Int, o = .pointer p ∧ (p < 0 ∨ p + 4 > s.ramSize) ∧ e = .ramOutOfRange p) ∨
      (∃ tag, o = .invalid tag ∧ e = .invalidMode tag) := by
  cases o with
  | register p =>
    rcases except_bind_error.mp h with h | ⟨_, _, h⟩
    · obtain ⟨he, hp⟩ := State.regIndex_error h
      exact .inl ⟨p, .inl rfl, hp, he⟩
    · cases h
  | registerValue p =>
    rcases except_bind_error.mp h with h | ⟨i, hi, h⟩
    · obtain ⟨he, hp⟩ := State.regIndex_error h
      exact .inl ⟨p, .inr rfl, hp, he⟩
    · obtain ⟨h₀, h₁, rfl⟩ := State.regIndex_ok_iff.mp hi
      rcases except_bind_error.mp h with h | ⟨_, _, h⟩
      · obtain ⟨he, ha⟩ := State.ramSpan_error h
        exact .inr (.inl ⟨p, rfl, h₀, h₁, ha, he⟩)
      · cases h
  | pointer p =>
    rcases except_bind_error.mp h with h | ⟨_, _, h⟩
    · obtain ⟨he, ha⟩ := State.ramSpan_error h
      exact .inr (.inr (.inl ⟨p, rfl, ha, he⟩))
    · cases h
  | constant p => cases h
  | invalid tag =>
    cases h
    exact .inr (.inr (.inr ⟨tag, rfl, rfl⟩))

theorem State.locationOk_of_resolve {s : State} {o : Operand} {l : Location} (h : s.resolve o = .ok l) :
    s.LocationOk l := by
  rcases State.resolve_ok h with ⟨p, _, _, _, rfl⟩ | ⟨p, _, _, _, _, _, rfl⟩ | ⟨p, _, _, _, rfl⟩ | ⟨p, _, rfl⟩ <;>
    simp only [State.LocationOk] <;> omega

theorem State.readOperand_ok_iff {s : State} {o : Operand} {v : Word} :
    s.readOperand o = .ok v ↔ ∃ l, s.resolve o = .ok l ∧ v = s.load l := by
  refine except_bind_ok.trans (exists_congr fun l => and_congr_right fun _ => ?_)
  exact ⟨fun h => by cases h; rfl, fun h => by rw [h]⟩

/-- A destination that resolves is what its operand resolves to, and no constant (R104). -/
theorem State.resolveDest_ok {s : State} {k : Nat} {o : Operand} {l : Location} (h : s.resolveDest k o = .ok l) :
    s.resolve o = .ok l ∧ ∀ v, l ≠ .const v := by
  obtain ⟨l', hl', h⟩ := except_bind_ok.mp h
  cases l' with
  | const v => cases h
  | reg i =>
    cases h
    exact ⟨hl', fun v hv => nomatch hv⟩
  | ram a =>
    cases h
    exact ⟨hl', fun v hv => nomatch hv⟩

/-- Everything a store can do to a location a destination can be (R105). -/
theorem State.store_ok {s t : State} {l : Location} {v : Word} (h : s.store l v = .ok t) (hl : ∀ w, l ≠ .const w) :
    (∃ i, l = .reg i ∧ t = s.setReg i v) ∨
      ∃ a q, l = .ram a ∧ enc v.toInt = some q ∧ t = s.setRamQuad a q := by
  cases l with
  | reg i =>
    cases h
    exact .inl ⟨i, rfl, rfl⟩
  | ram a =>
    obtain ⟨q, hq, ht⟩ := State.numWrite_ok h
    exact .inr ⟨a, q, rfl, hq, ht⟩
  | const w => exact absurd rfl (hl w)

theorem State.store_error {s : State} {l : Location} {v : Word} {e : Cause} (h : s.store l v = .error e) :
    ∃ a, l = .ram a ∧ e = .encodeRange v.toInt ∧ enc v.toInt = none := by
  cases l with
  | reg i => cases h
  | ram a =>
    obtain ⟨he, hq⟩ := State.numWrite_error h
    exact ⟨a, rfl, he, hq⟩
  | const w => cases h

end Sys2Proof.Machine
end

