-- ==== Sys2Proof/Laws/Bodies.lean ====
section
/-! SUPPORT. The meanings in one form, and what each instruction's body can do when it completes. -/

namespace Sys2Proof.Machine

/-- The body of an instruction: what it does once its condition holds (R98). -/
def bodyOf (i : Instr) (s : State) : Body :=
  match i with
  | .move _ src dst => s.moveBody src dst
  | .add _ a b d => s.binaryBody aluAdd a b d
  | .subtract _ a b d => s.binaryBody aluSubtract a b d
  | .multiply _ a b d => s.binaryBody aluMultiply a b d
  | .divide _ a b d => s.binaryBody aluDivide a b d
  | .modulo _ a b d => s.binaryBody aluModulo a b d
  | .bitwiseAnd _ a b d => s.binaryBody aluAnd a b d
  | .bitwiseOr _ a b d => s.binaryBody aluOr a b d
  | .bitwiseXor _ a b d => s.binaryBody aluXor a b d
  | .compare _ a b => s.compareBody a b
  | .branch _ target => s.branchBody target
  | .readInput _ dst => s.readInputBody dst
  | .writeOutput _ src => s.writeOutputBody src
  | .diskRead _ offset dst => s.diskReadBody offset dst
  | .diskWrite _ value offset => s.diskWriteBody value offset
  | .nestedExecution _ offset length => s.nestedExecutionBody offset length
  | .halt _ => .ok (s.endFrame .haltOp)

/-- Every meaning is a conditional statement of its instruction's length over its instruction's body. -/
theorem exec_eq_conditional (i : Instr) (s : State) : exec i s = s.conditional i.cond i.length (bodyOf i s) := by
  cases i <;> rfl

theorem State.binaryBody_ok {s t : State} {op : Word → Word → Except Cause Word} {a b d : Operand}
    (h : s.binaryBody op a b d = .ok t) :
    ∃ va vb r l u, s.readOperand a = .ok va ∧ s.readOperand b = .ok vb ∧ op va vb = .ok r ∧
      s.resolveDest 2 d = .ok l ∧ s.store l r = .ok u ∧ t = u.advance lenWide := by
  obtain ⟨va, ha, h⟩ := except_bind_ok.mp h
  obtain ⟨vb, hb, h⟩ := except_bind_ok.mp h
  obtain ⟨r, hr, h⟩ := except_bind_ok.mp h
  obtain ⟨l, hl, h⟩ := except_bind_ok.mp h
  obtain ⟨u, hu, h⟩ := except_bind_ok.mp h
  cases h
  exact ⟨va, vb, r, l, u, ha, hb, hr, hl, hu, rfl⟩

theorem State.moveBody_ok {s t : State} {src dst : Operand} (h : s.moveBody src dst = .ok t) :
    ∃ v l u, s.readOperand src = .ok v ∧ s.resolveDest 1 dst = .ok l ∧ s.store l v = .ok u ∧
      t = u.advance lenWide := by
  obtain ⟨v, hv, h⟩ := except_bind_ok.mp h
  obtain ⟨l, hl, h⟩ := except_bind_ok.mp h
  obtain ⟨u, hu, h⟩ := except_bind_ok.mp h
  cases h
  exact ⟨v, l, u, hv, hl, hu, rfl⟩

theorem State.compareBody_ok {s t : State} {a b : Operand} (h : s.compareBody a b = .ok t) :
    ∃ va vb, s.readOperand a = .ok va ∧ s.readOperand b = .ok vb ∧
      t = (s.setFlag (compareFlag va vb)).advance lenWide := by
  obtain ⟨va, ha, h⟩ := except_bind_ok.mp h
  obtain ⟨vb, hb, h⟩ := except_bind_ok.mp h
  cases h
  exact ⟨va, vb, ha, hb, rfl⟩

theorem State.branchBody_ok {s t : State} {target : Operand} (h : s.branchBody target = .ok t) :
    ∃ v, s.readOperand target = .ok v ∧ 0 ≤ v.toInt ∧ v.toInt ≤ s.len ∧ t = s.setPc v.toInt.toNat := by
  obtain ⟨v, hv, h⟩ := except_bind_ok.mp h
  unfold State.branchTo at h
  split at h
  · cases h
  · cases h
    exact ⟨v, hv, by omega, by omega, rfl⟩

/-- A read-input that completes waited, or consumed one byte and stored it (R150, R154). -/
theorem State.readInputBody_ok {s t : State} {dst : Operand} (h : s.readInputBody dst = .ok t) :
    ∃ l, s.resolveDest 0 dst = .ok l ∧
      ((s.cin = [] ∧ t = s) ∨
        ∃ b rest u, s.cin = b :: rest ∧ ({ s with cin := rest } : State).store l (byteToWord b) = .ok u ∧
          t = u.advance lenNarrow) := by
  obtain ⟨l, hl, h⟩ := except_bind_ok.mp h
  refine ⟨l, hl, ?_⟩
  split at h
  · rename_i hc
    cases h
    exact .inl ⟨State.consoleIn_none hc, rfl⟩
  · rename_i b s' hc
    obtain ⟨hb, hs'⟩ := State.consoleIn_some hc
    obtain ⟨u, hu, h⟩ := except_bind_ok.mp h
    cases h
    rw [hs'] at hu
    exact .inr ⟨b, s'.cin, u, hb, hu, rfl⟩

theorem State.writeOutputBody_ok {s t : State} {src : Operand} (h : s.writeOutputBody src = .ok t) :
    ∃ v, s.readOperand src = .ok v ∧ t = (s.consoleOut (lowByte v)).advance lenNarrow := by
  obtain ⟨v, hv, h⟩ := except_bind_ok.mp h
  cases h
  exact ⟨v, hv, rfl⟩

theorem State.diskReadBody_ok {s t : State} {offset dst : Operand} (h : s.diskReadBody offset dst = .ok t) :
    ∃ o a l u, s.readOperand offset = .ok o ∧ s.diskSpan o.toInt = .ok a ∧ s.resolveDest 1 dst = .ok l ∧
      s.store l (s.diskNumRead a) = .ok u ∧ t = u.advance lenWide := by
  obtain ⟨o, ho, h⟩ := except_bind_ok.mp h
  obtain ⟨a, ha, h⟩ := except_bind_ok.mp h
  obtain ⟨l, hl, h⟩ := except_bind_ok.mp h
  obtain ⟨u, hu, h⟩ := except_bind_ok.mp h
  cases h
  exact ⟨o, a, l, u, ho, ha, hl, hu, rfl⟩

theorem State.diskWriteBody_ok {s t : State} {value offset : Operand} (h : s.diskWriteBody value offset = .ok t) :
    ∃ v o a u, s.readOperand value = .ok v ∧ s.readOperand offset = .ok o ∧ s.diskSpan o.toInt = .ok a ∧
      s.diskNumWrite a v = .ok u ∧ t = u.advance lenWide := by
  obtain ⟨v, hv, h⟩ := except_bind_ok.mp h
  obtain ⟨o, ho, h⟩ := except_bind_ok.mp h
  obtain ⟨a, ha, h⟩ := except_bind_ok.mp h
  obtain ⟨u, hu, h⟩ := except_bind_ok.mp h
  cases h
  exact ⟨v, o, a, u, hv, ho, ha, hu, rfl⟩

/-- A call that completes did nothing for length 0, else pushed a frame over a range of RAM (R160, R165). -/
theorem State.call_ok {s t : State} {o n : Int} (h : s.call o n = .ok t) :
    (n = 0 ∧ t = s.advance lenWide) ∨
      (0 < n ∧ 0 ≤ o ∧ o + n ≤ s.ramSize ∧ s.depth + 1 ≤ s.maxDepth ∧
        t = (s.advance lenWide).pushFrame o.toNat n.toNat) := by
  unfold State.call at h
  split at h
  · rename_i hn
    cases h
    exact .inl ⟨hn, rfl⟩
  · split at h
    · cases h
    · obtain ⟨base, hb, h⟩ := except_bind_ok.mp h
      obtain ⟨h₀, h₁, rfl⟩ := State.ramSpan_ok_iff.mp hb
      split at h
      · cases h
      · cases h
        exact .inr ⟨by omega, h₀, h₁, by omega, rfl⟩

theorem State.nestedExecutionBody_ok {s t : State} {offset length : Operand}
    (h : s.nestedExecutionBody offset length = .ok t) :
    ∃ o n, s.readOperand offset = .ok o ∧ s.readOperand length = .ok n ∧ s.call o.toInt n.toInt = .ok t := by
  obtain ⟨o, ho, h⟩ := except_bind_ok.mp h
  obtain ⟨n, hn, h⟩ := except_bind_ok.mp h
  exact ⟨o, n, ho, hn, h⟩

end Sys2Proof.Machine
end

