-- ==== Sys2Proof/Laws/Encoding.lean ====
section
/-! SUPPORT. The decoder and the encoder: the opcode and condition tables read both ways, what an accepted statement
is made of, and the length of an encoding. -/

namespace Sys2Proof

open Sys2Proof.Machine

theorem Opcode.ofByte_toByte (op : Opcode) : Opcode.ofByte op.toByte = some op := by cases op <;> rfl

theorem Cond.ofByte_toByte (c : Cond) : Cond.ofByte c.toByte = some c := by cases c <;> rfl

/-- The opcode table has the bytes 0x00 to 0x10 and no other (R62, R70). -/
theorem Opcode.ofByte_cases (b : Byte) :
    (b.toNat > 0x10 ∧ Opcode.ofByte b = none) ∨
      ∃ op, Opcode.ofByte b = some op ∧ op.toByte = b ∧ b.toNat ≤ 0x10 ∧
        op.length = if b.toNat ≤ 0x09 ∨ (0x0D ≤ b.toNat ∧ b.toNat ≤ 0x0F) then 17 else 7 := by
  revert b
  decide

/-- The condition table has the bytes 0 to 5 and no other (R66, R71). -/
theorem Cond.ofByte_cases (b : Byte) :
    (b.toNat > 5 ∧ Cond.ofByte b = none) ∨ ∃ c, Cond.ofByte b = some c ∧ c.toByte = b ∧ b.toNat ≤ 5 := by
  revert b
  decide

@[simp] theorem Opcode.instr_opcode (op : Opcode) (c : Cond) (st : List Byte) : (op.instr c st).opcode = op := by
  cases op <;> rfl

@[simp] theorem Opcode.instr_cond (op : Opcode) (c : Cond) (st : List Byte) : (op.instr c st).cond = c := by
  cases op <;> rfl

@[simp] theorem Opcode.instr_length (op : Opcode) (c : Cond) (st : List Byte) : (op.instr c st).length = op.length := by
  cases op <;> rfl

/-- Everything an accepted statement is made of (R92 to R94). -/
theorem decode_ok {bs : List Byte} {i : Instr} (h : decode bs = .ok i) :
    ∃ opByte condByte rest op c, bs = opByte :: condByte :: rest ∧ Opcode.ofByte opByte = some op ∧
      Cond.ofByte condByte = some c ∧ op.length ≤ bs.length ∧ i = op.instr c bs := by
  unfold decode at h
  split at h
  · split at h
    · cases h
    · split at h
      · cases h
      · split at h
        · cases h
        · rename_i hop hlen _ _ hc
          cases h
          exact ⟨_, _, _, _, _, rfl, hop, hc, by omega, rfl⟩
  · cases h

theorem Instr.length_bounds (i : Instr) : 7 ≤ i.length ∧ i.length ≤ 17 := by
  cases i <;> simp [Instr.length, Instr.opcode, Opcode.length, lenWide, lenNarrow]

theorem encode_length (i : Instr) : (encode i).length = i.length := by cases i <;> rfl

/-- A slot is read from its own five bytes. -/
theorem decodeSlot_congr {bs bs' : List Byte} {k : Nat}
    (h : ∀ j, 2 + 5 * k ≤ j → j < 7 + 5 * k → bs'.getD j 0 = bs.getD j 0) : decodeSlot bs' k = decodeSlot bs k := by
  unfold decodeSlot payloadBytes
  rw [h _ (by omega) (by omega), h _ (by omega) (by omega), h _ (by omega) (by omega), h _ (by omega) (by omega),
    h _ (by omega) (by omega)]

/-- Every slot is a well-formed operand. -/
theorem decodeSlot_wellFormed (st : List Byte) (k : Nat) : (decodeSlot st k).wellFormed = true := by
  have h := payloadOk_dec (payloadBytes st k)
  unfold decodeSlot Operand.ofTag
  split
  · exact h
  · exact h
  · exact h
  · exact h
  · simp only [Operand.wellFormed, decide_eq_true_eq]
    generalize (st.getD (2 + 5 * k) 0).toNat = n at *
    simp only [imp_false] at *
    omega

end Sys2Proof
end

