-- ==== Sys2Proof/Laws/PerInstr.lean ====
section
/-! SUPPORT. Statements about every instruction as syntax, one lemma for each constructor. -/

namespace Sys2Proof.Laws

/-- The encoder writes as many bytes as the statement's length says (R63). -/
def EncodeLength.Statement (i : Instr) : Prop := (encode i).length = i.length

/-- The encoder's first two bytes are the opcode and the condition (R60). -/
def EncodeHeader.Statement (i : Instr) : Prop := (encode i).take 2 = [i.opcode.toByte, i.cond.toByte]

theorem EncodeLength.move (c : Cond) (src dst : Operand) : EncodeLength.Statement (.move c src dst) := rfl
theorem EncodeLength.add (c : Cond) (a b d : Operand) : EncodeLength.Statement (.add c a b d) := rfl
theorem EncodeLength.subtract (c : Cond) (a b d : Operand) : EncodeLength.Statement (.subtract c a b d) := rfl
theorem EncodeLength.multiply (c : Cond) (a b d : Operand) : EncodeLength.Statement (.multiply c a b d) := rfl
theorem EncodeLength.divide (c : Cond) (a b d : Operand) : EncodeLength.Statement (.divide c a b d) := rfl
theorem EncodeLength.modulo (c : Cond) (a b d : Operand) : EncodeLength.Statement (.modulo c a b d) := rfl
theorem EncodeLength.bitwiseAnd (c : Cond) (a b d : Operand) : EncodeLength.Statement (.bitwiseAnd c a b d) := rfl
theorem EncodeLength.bitwiseOr (c : Cond) (a b d : Operand) : EncodeLength.Statement (.bitwiseOr c a b d) := rfl
theorem EncodeLength.bitwiseXor (c : Cond) (a b d : Operand) : EncodeLength.Statement (.bitwiseXor c a b d) := rfl
theorem EncodeLength.compare (c : Cond) (a b : Operand) : EncodeLength.Statement (.compare c a b) := rfl
theorem EncodeLength.branch (c : Cond) (target : Operand) : EncodeLength.Statement (.branch c target) := rfl
theorem EncodeLength.readInput (c : Cond) (dst : Operand) : EncodeLength.Statement (.readInput c dst) := rfl
theorem EncodeLength.writeOutput (c : Cond) (src : Operand) : EncodeLength.Statement (.writeOutput c src) := rfl
theorem EncodeLength.diskRead (c : Cond) (offset dst : Operand) : EncodeLength.Statement (.diskRead c offset dst) := rfl
theorem EncodeLength.diskWrite (c : Cond) (value offset : Operand) : EncodeLength.Statement (.diskWrite c value offset) := rfl
theorem EncodeLength.nestedExecution (c : Cond) (offset length : Operand) : EncodeLength.Statement (.nestedExecution c offset length) := rfl
theorem EncodeLength.halt (c : Cond) : EncodeLength.Statement (.halt c) := rfl

theorem EncodeHeader.move (c : Cond) (src dst : Operand) : EncodeHeader.Statement (.move c src dst) := rfl
theorem EncodeHeader.add (c : Cond) (a b d : Operand) : EncodeHeader.Statement (.add c a b d) := rfl
theorem EncodeHeader.subtract (c : Cond) (a b d : Operand) : EncodeHeader.Statement (.subtract c a b d) := rfl
theorem EncodeHeader.multiply (c : Cond) (a b d : Operand) : EncodeHeader.Statement (.multiply c a b d) := rfl
theorem EncodeHeader.divide (c : Cond) (a b d : Operand) : EncodeHeader.Statement (.divide c a b d) := rfl
theorem EncodeHeader.modulo (c : Cond) (a b d : Operand) : EncodeHeader.Statement (.modulo c a b d) := rfl
theorem EncodeHeader.bitwiseAnd (c : Cond) (a b d : Operand) : EncodeHeader.Statement (.bitwiseAnd c a b d) := rfl
theorem EncodeHeader.bitwiseOr (c : Cond) (a b d : Operand) : EncodeHeader.Statement (.bitwiseOr c a b d) := rfl
theorem EncodeHeader.bitwiseXor (c : Cond) (a b d : Operand) : EncodeHeader.Statement (.bitwiseXor c a b d) := rfl
theorem EncodeHeader.compare (c : Cond) (a b : Operand) : EncodeHeader.Statement (.compare c a b) := rfl
theorem EncodeHeader.branch (c : Cond) (target : Operand) : EncodeHeader.Statement (.branch c target) := rfl
theorem EncodeHeader.readInput (c : Cond) (dst : Operand) : EncodeHeader.Statement (.readInput c dst) := rfl
theorem EncodeHeader.writeOutput (c : Cond) (src : Operand) : EncodeHeader.Statement (.writeOutput c src) := rfl
theorem EncodeHeader.diskRead (c : Cond) (offset dst : Operand) : EncodeHeader.Statement (.diskRead c offset dst) := rfl
theorem EncodeHeader.diskWrite (c : Cond) (value offset : Operand) : EncodeHeader.Statement (.diskWrite c value offset) := rfl
theorem EncodeHeader.nestedExecution (c : Cond) (offset length : Operand) : EncodeHeader.Statement (.nestedExecution c offset length) := rfl
theorem EncodeHeader.halt (c : Cond) : EncodeHeader.Statement (.halt c) := rfl

end Sys2Proof.Laws
end

