-- ==== Sys2Proof/Laws/Step.lean ====
section
/-! SUPPORT. Everything a step can do, and everything a completed body leaves as it was. -/

namespace Sys2Proof.Machine

theorem step_running {s : State} (h : s.status = .running) :
    step s =
      if s.pc = s.len then .next (s.endFrame .exhausted)
      else
        match s.fetchWindow with
        | .ok bytes => s.afterDecode (decode bytes) (fun i => exec i s)
        | .error e => .fault e := by
  unfold step
  split
  · rfl
  · contradiction

theorem step_stopped {s : State} (h : s.status ≠ .running) : step s = .next s := by
  unfold step
  split
  · contradiction
  · rfl

/-- Everything an instruction can do: be skipped, complete its body, or raise (R97, R98, R184). -/
theorem exec_cases {i : Instr} {s t : State} (h : exec i s = .next t) :
    t = s.advance i.length ∨ bodyOf i s = .ok t ∨ ∃ e, t = s.raise e := by
  rw [exec_eq_conditional] at h
  rcases State.conditional_cases h with ⟨_, h⟩ | ⟨_, h⟩ | ⟨_, e, _, h⟩
  · exact .inl h
  · exact .inr (.inl h)
  · exact .inr (.inr ⟨e, h⟩)

/-- An instruction always answers a next state. -/
theorem exec_next (i : Instr) (s : State) : ∃ t, exec i s = .next t := by
  rw [exec_eq_conditional]
  exact State.conditional_next _ _ _ _

/-- Everything a step can do (R90): nothing, outside `Running`; end the frame; run an instruction that lies in the
stream; raise what the decoder found. -/
theorem step_cases {s t : State} (h : step s = .next t) :
    (s.status ≠ .running ∧ t = s) ∨
      (s.status = .running ∧ s.pc = s.len ∧ t = s.endFrame .exhausted) ∨
      (s.status = .running ∧ s.pc ≠ s.len ∧ ∃ i : Instr, i.length ≤ s.len - s.pc ∧ exec i s = .next t) ∨
      (s.status = .running ∧ ∃ e, t = s.raise e) := by
  by_cases hr : s.status = .running
  · rw [step_running hr] at h
    split at h
    · rename_i hp
      cases h
      exact .inr (.inl ⟨hr, hp, rfl⟩)
    · rename_i hp
      split at h
      · rename_i bs hb
        unfold State.afterDecode at h
        split at h
        · rename_i i hi
          have hl := (State.streamBytes_ok hb).1
          obtain ⟨_, _, _, op, c, _, _, _, hlen, rfl⟩ := decode_ok hi
          exact .inr (.inr (.inl ⟨hr, hp, _, by rw [Opcode.instr_length]; omega, h⟩))
        · cases h
          exact .inr (.inr (.inr ⟨hr, _, rfl⟩))
      · cases h
  · rw [step_stopped hr] at h
    cases h
    exact .inl ⟨hr, rfl⟩

/-- Every fault has a code of R180. -/
theorem Cause.code_bounds (e : Cause) : 1 ≤ e.code ∧ e.code ≤ 13 := by cases e <;> simp [Cause.code]

/-- A store changes registers or RAM alone. -/
theorem State.store_eq {s t : State} {l : Location} {v : Word} (h : s.store l v = .ok t) (hl : ∀ w, l ≠ .const w) :
    t = { s with regs := t.regs, ram := t.ram } ∧ t.regs.length = s.regs.length := by
  rcases State.store_ok h hl with ⟨i, rfl, rfl⟩ | ⟨a, q, rfl, _, rfl⟩
  · exact ⟨rfl, by simp⟩
  · exact ⟨rfl, rfl⟩

/-- A disk store changes the disk alone, and not its size. -/
theorem State.diskNumWrite_eq {s t : State} {a : Nat} {v : Word} (h : s.diskNumWrite a v = .ok t) :
    t = { s with disk := t.disk } ∧ t.disk.length = s.disk.length := by
  obtain ⟨q, _, rfl⟩ := State.diskNumWrite_ok h
  exact ⟨rfl, by simp⟩

/-- What no body but a branch, a call or a halt changes: the frames, the status, the fault record, the sizes and the
parameters. -/
structure State.SameFrame (s u : State) : Prop where
  current : u.current = s.current
  callers : u.callers = s.callers
  status : u.status = s.status
  fault : u.fault = s.fault
  bios : u.bios = s.bios
  ramSize : u.ramSize = s.ramSize
  maxDepth : u.maxDepth = s.maxDepth
  run : u.run = s.run
  nregs : u.regs.length = s.regs.length
  diskSize : u.disk.length = s.disk.length

theorem State.store_sameFrame {s s' t : State} {l : Location} {v : Word} (h : s'.store l v = .ok t)
    (hl : ∀ w, l ≠ .const w) (hs : s.SameFrame s') : s.SameFrame t := by
  obtain ⟨ht, hn⟩ := State.store_eq h hl
  rw [ht]
  exact ⟨hs.current, hs.callers, hs.status, hs.fault, hs.bios, hs.ramSize, hs.maxDepth, hs.run, hn.trans hs.nregs,
    hs.diskSize⟩

theorem State.sameFrame_refl (s : State) : s.SameFrame s := ⟨rfl, rfl, rfl, rfl, rfl, rfl, rfl, rfl, rfl, rfl⟩

/-- Everything a completed body can do to the frames: advance the `pc`, set it, push a frame, or end one (R99). -/
theorem bodyOf_cases {i : Instr} {s t : State} (h : bodyOf i s = .ok t) :
    (∃ u n, t = State.advance u n ∧ n ≤ i.length ∧ s.SameFrame u) ∨
      (∃ x, x ≤ s.len ∧ t = s.setPc x) ∨
      (∃ o n, 0 < n ∧ o + n ≤ s.ramSize ∧ s.depth + 1 ≤ s.maxDepth ∧ i.length = lenWide ∧
        t = (s.advance lenWide).pushFrame o n) ∨
      t = s.endFrame .haltOp := by
  have binary : ∀ op a b d, i.length = lenWide → s.binaryBody op a b d = .ok t →
      ∃ u n, t = State.advance u n ∧ n ≤ i.length ∧ s.SameFrame u := by
    intro op a b d hlen h
    obtain ⟨va, vb, r, l, u, _, _, _, hl, hu, rfl⟩ := State.binaryBody_ok h
    exact ⟨u, _, rfl, hlen.ge, State.store_sameFrame hu (State.resolveDest_ok hl).2 s.sameFrame_refl⟩
  have same : ∀ u : State, s.SameFrame u → ∀ n, t = u.advance n → n ≤ i.length →
      ∃ u n, t = State.advance u n ∧ n ≤ i.length ∧ s.SameFrame u := fun u hu n ht hn => ⟨u, n, ht, hn, hu⟩
  cases i with
  | add => exact .inl (binary _ _ _ _ rfl h)
  | subtract => exact .inl (binary _ _ _ _ rfl h)
  | multiply => exact .inl (binary _ _ _ _ rfl h)
  | divide => exact .inl (binary _ _ _ _ rfl h)
  | modulo => exact .inl (binary _ _ _ _ rfl h)
  | bitwiseAnd => exact .inl (binary _ _ _ _ rfl h)
  | bitwiseOr => exact .inl (binary _ _ _ _ rfl h)
  | bitwiseXor => exact .inl (binary _ _ _ _ rfl h)
  | move =>
    obtain ⟨v, l, u, _, hl, hu, rfl⟩ := State.moveBody_ok h
    exact .inl (same u (State.store_sameFrame hu (State.resolveDest_ok hl).2 s.sameFrame_refl) _ rfl (le_refl _))
  | compare =>
    obtain ⟨va, vb, _, _, rfl⟩ := State.compareBody_ok h
    exact .inl (same (s.setFlag (compareFlag va vb)) ⟨rfl, rfl, rfl, rfl, rfl, rfl, rfl, rfl, rfl, rfl⟩ _ rfl (le_refl _))
  | branch =>
    obtain ⟨v, _, h₀, h₁, rfl⟩ := State.branchBody_ok h
    exact .inr (.inl ⟨_, by omega, rfl⟩)
  | readInput =>
    obtain ⟨l, hl, h | ⟨b, rest, u, _, hu, rfl⟩⟩ := State.readInputBody_ok h
    · exact .inl (same s s.sameFrame_refl 0 h.2 (Nat.zero_le _))
    · exact .inl (same u (State.store_sameFrame hu (State.resolveDest_ok hl).2
        ⟨rfl, rfl, rfl, rfl, rfl, rfl, rfl, rfl, rfl, rfl⟩) _ rfl (le_refl _))
  | writeOutput =>
    obtain ⟨v, _, rfl⟩ := State.writeOutputBody_ok h
    exact .inl (same (s.consoleOut (lowByte v)) ⟨rfl, rfl, rfl, rfl, rfl, rfl, rfl, rfl, rfl, rfl⟩ _ rfl (le_refl _))
  | diskRead =>
    obtain ⟨o, a, l, u, _, _, hl, hu, rfl⟩ := State.diskReadBody_ok h
    exact .inl (same u (State.store_sameFrame hu (State.resolveDest_ok hl).2 s.sameFrame_refl) _ rfl (le_refl _))
  | diskWrite =>
    obtain ⟨v, o, a, u, _, _, _, hu, rfl⟩ := State.diskWriteBody_ok h
    obtain ⟨hu, hd⟩ := State.diskNumWrite_eq hu
    refine .inl (same u ?_ _ rfl (le_refl _))
    rw [hu]
    exact ⟨rfl, rfl, rfl, rfl, rfl, rfl, rfl, rfl, rfl, hd⟩
  | nestedExecution =>
    obtain ⟨o, n, _, _, hcall⟩ := State.nestedExecutionBody_ok h
    rcases State.call_ok hcall with ⟨_, rfl⟩ | ⟨h₁, h₂, h₃, h₄, rfl⟩
    · exact .inl (same s s.sameFrame_refl _ rfl (le_refl _))
    · exact .inr (.inr (.inl ⟨_, _, by omega, by omega, h₄, rfl, rfl⟩))
  | halt =>
    cases h
    exact .inr (.inr (.inr rfl))

end Sys2Proof.Machine
end

