-- ==== Sys2Proof/Laws/Safety.lean ====
section
/-! SUPPORT. The well-formed states taken apart, and what they say of the stream a step fetches from. -/

namespace Sys2Proof.Machine

/-- The parts of the invariant. -/
theorem State.inv_iff (s : State) :
    s.Inv = true ↔
      s.config.wf = true ∧ launchOk s.bios s.disk = true ∧ s.ram.wf = true ∧
        (∀ cell ∈ s.ram, cell.1 < s.ramSize) ∧
        framesOk s.bios.length s.ramSize (s.current :: s.callers) = true ∧ s.depth ≤ s.maxDepth ∧
        s.faultOk = true ∧ ∀ r, s.status = .halted r → s.callers = [] := by
  unfold State.Inv
  simp only [Bool.and_eq_true, decide_eq_true_eq, List.all_eq_true]
  constructor
  · rintro ⟨⟨⟨⟨⟨⟨a, b⟩, c, d⟩, e⟩, f⟩, g⟩, h⟩
    refine ⟨a, b, c, d, e, f, g, fun r hr => ?_⟩
    rw [hr] at h
    simpa using h
  · rintro ⟨a, b, c, d, e, f, g, h⟩
    refine ⟨⟨⟨⟨⟨⟨a, b⟩, c, d⟩, e⟩, f⟩, g⟩, ?_⟩
    split
    · rename_i r hr
      simpa using h r hr
    · rfl

/-- The frame on top is the top-level frame with none below it, or a nested frame over proper frames (R17). -/
theorem framesOk_cons {n m : Nat} {f : Frame} {fs : List Frame} (h : framesOk n m (f :: fs) = true) :
    (f.topLevelOk n = true ∧ fs = []) ∨ (f.nestedOk m = true ∧ framesOk n m fs = true) := by
  cases fs with
  | nil => exact .inl ⟨h, rfl⟩
  | cons g rest =>
    simp only [framesOk, Bool.and_eq_true] at h
    exact .inr h

theorem framesOk_push {n m : Nat} {f : Frame} {fs : List Frame} (h : f.nestedOk m = true)
    (hs : framesOk n m fs = true) : framesOk n m (f :: fs) = true := by
  cases fs with
  | nil => cases hs
  | cons g rest =>
    simp only [framesOk, Bool.and_eq_true]
    exact ⟨h, hs⟩

/-- The `pc` of the current frame may move anywhere in its stream (R15). -/
theorem framesOk_setPc {n m x : Nat} {f : Frame} {fs : List Frame} (h : framesOk n m (f :: fs) = true)
    (hx : x ≤ f.len) : framesOk n m ({ f with pc := x } :: fs) = true := by
  rcases framesOk_cons h with ⟨h, rfl⟩ | ⟨h, hs⟩
  · simp only [Frame.topLevelOk, Frame.pcOk, Bool.and_eq_true, decide_eq_true_eq, framesOk] at *
    exact ⟨h.1, hx⟩
  · refine framesOk_push ?_ hs
    simp only [Frame.nestedOk, Frame.pcOk, Bool.and_eq_true, decide_eq_true_eq] at *
    exact ⟨h.1, hx⟩

/-- In a well-formed state the `pc` lies in the stream or at its end, and every byte of the stream exists. -/
theorem State.stream_of_inv {s : State} (h : s.Inv = true) :
    s.pc ≤ s.len ∧ ∀ i, i < s.len → s.streamByte i ≠ none := by
  have h := ((s.inv_iff).mp h).2.2.2.2.1
  unfold State.streamByte State.spaceByte State.pc State.len
  rcases framesOk_cons h with ⟨h, _⟩ | ⟨h, _⟩
  · simp only [Frame.topLevelOk, Frame.pcOk, Bool.and_eq_true, decide_eq_true_eq] at h
    refine ⟨h.2, fun i hi => ?_⟩
    rw [h.1.1.1]
    simp
    omega
  · simp only [Frame.nestedOk, Frame.pcOk, Bool.and_eq_true, decide_eq_true_eq] at h
    refine ⟨h.2, fun i hi => ?_⟩
    rw [h.1.1.1]
    simp
    omega

/-- In a well-formed state the fetch gives the bytes from `pc` to the end of the stream, at most seventeen. -/
theorem State.fetchWindow_of_inv {s : State} (h : s.Inv = true) :
    ∃ bs, s.fetchWindow = .ok bs ∧ bs.length = min 17 (s.len - s.pc) ∧
      ∀ k, k < bs.length → s.streamByte (s.pc + k) = bs[k]? := by
  obtain ⟨_, hs⟩ := s.stream_of_inv h
  obtain ⟨bs, hb⟩ := State.streamBytes_isOk (s := s) (n := min lenWide (s.len - s.pc)) (i := s.pc) fun k hk => by
    exact hs _ (by omega)
  obtain ⟨hl, hg⟩ := State.streamBytes_ok hb
  exact ⟨bs, hb, hl, fun k hk => hg k (by omega)⟩

end Sys2Proof.Machine
end

