-- ==== Sys2Proof/Tests/Slice0.lean ====
section
/-! SUPPORT. The model's own tests. Expected values come from the tables of spec/95_test_vectors.md, which each part
names; the witnesses show states and operands that meet the hypotheses of the statements. -/

namespace Sys2Proof.Tests

open Sys2Proof Sys2Proof.Machine Sys2Proof.Claims

/-! ### Helpers -/

/-- The default machine over a BIOS program, with the first registers given and the others 0. -/
def machine (bios : List Byte) (x : List Word) : State :=
  { State.launch { } 0 bios [] [] with regs := x ++ List.replicate (16 - x.length) 0 }

/-- Bytes written to RAM from an address on. -/
def cells (a : Nat) (bs : List Byte) : Memory :=
  match bs with
  | [] => []
  | b :: rest => (a, b) :: cells (a + 1) rest

/-- A disk of 200 bytes with the four bytes `bs` at offset 100 and zeros elsewhere. -/
def disk200 (bs : List Byte) : List Byte := List.replicate 100 0 ++ bs ++ List.replicate (100 - bs.length) 0

/-- The state a step or a meaning answers. -/
def after (o : StepOutcome) : Option State :=
  match o with
  | .next t => some t
  | _ => none

/-- A fact about the state one step leads to. -/
def stepTo (s : State) (p : State → Bool) : Bool := ((after (step s)).map p).getD false

/-- Status `Faulted` with this code and info, at this depth and `pc`. -/
def faultedWith (code : Nat) (info : Int) (depth pc : Nat) (t : State) : Bool :=
  decide (t.status = .faulted) && decide (t.fault.map (fun r => (r.code, r.info, r.depth, r.pc)) = some (code, info, depth, pc))

/-- What the decoder reads. -/
def read (bs : List Byte) : Option Instr :=
  match decode bs with
  | .ok i => some i
  | .error _ => none

/-- `OP.eq r0, r1 -> r2`, the statement of table 2.6. -/
def aluWord (op : Byte) : List Byte := [op, 0, 0, 0, 0, 0, 0, 0, 0, 0, 0, 1, 0, 0, 0, 0, 2]

/-- Register 2 and the `pc` after that statement. -/
def aluGives (op : Byte) (a b r : Word) : Bool :=
  stepTo (machine (aluWord op) [a, b]) fun t => decide (t = { machine (aluWord op) [a, b, r] with
    current := { space := .bios, base := 0, len := 17, pc := 17 } })

/-! ### WellFormed: an ill-formed term for each check is refused (R33, R72) -/

theorem test_wf_register_payload_too_high : (Operand.register 69623).wellFormed = false := by decide
theorem test_wf_register_value_payload_too_low : (Operand.registerValue (-69616)).wellFormed = false := by decide
theorem test_wf_pointer_payload_too_high : (Operand.pointer 69623).wellFormed = false := by decide
theorem test_wf_constant_payload_too_low : (Operand.constant (-69616)).wellFormed = false := by decide
theorem test_wf_valid_tag_is_not_invalid : (Operand.invalid 3).wellFormed = false := by decide
theorem test_wf_accepts_the_limits :
    (Operand.constant 69622).wellFormed = true ∧ (Operand.pointer (-69615)).wellFormed = true ∧
      (Operand.invalid 4).wellFormed = true := by decide
theorem test_wf_every_slot_is_checked :
    (Instr.add .eq (.constant 0) (.constant 0) (.register 69623)).wellFormed = false ∧
      (Instr.add .eq (.constant 0) (.constant 69623) (.register 0)).wellFormed = false ∧
      (Instr.add .eq (.constant 69623) (.constant 0) (.register 0)).wellFormed = false := by decide

/-! ### Decoding: the words of tables 2.4 to 2.11 and of program P1 -/

theorem test_decode_move : read [0x00, 0x00, 0x03, 0x08, 0x04, 0x00, 0xD2, 0x01, 0, 0, 0, 0x02, 0, 0, 0, 0, 0]
    = some (.move .eq (.constant (-1234)) (.registerValue 2)) := by decide
theorem test_decode_add : read [0x01, 0x00, 0x00, 0, 0, 0, 0x00, 0x03, 0, 0, 0, 0x03, 0x00, 0, 0, 0, 0x01]
    = some (.add .eq (.register 0) (.constant 3) (.register 1)) := by decide
theorem test_decode_subtract : read [0x02, 0x00, 0x02, 0, 0, 0, 0x64, 0x03, 0, 0, 0, 0x01, 0x02, 0, 0, 0, 0x64]
    = some (.subtract .eq (.pointer 100) (.constant 1) (.pointer 100)) := by decide
theorem test_decode_multiply : read (aluWord 0x03) = some (.multiply .eq (.register 0) (.register 1) (.register 2)) := by
  decide
theorem test_decode_divide : read [0x04, 0x00, 0x03, 0, 0, 0, 0x07, 0x03, 0, 0, 0, 0x01, 0x03, 0, 0, 0, 0x00]
    = some (.divide .eq (.constant 7) (.constant 1) (.constant 0)) := by decide
theorem test_decode_modulo : read (aluWord 0x05) = some (.modulo .eq (.register 0) (.register 1) (.register 2)) := by
  decide
theorem test_decode_bitwise_and :
    read (aluWord 0x06) = some (.bitwiseAnd .eq (.register 0) (.register 1) (.register 2)) := by decide
theorem test_decode_bitwise_or :
    read (aluWord 0x07) = some (.bitwiseOr .eq (.register 0) (.register 1) (.register 2)) := by decide
theorem test_decode_bitwise_xor :
    read (aluWord 0x08) = some (.bitwiseXor .eq (.register 0) (.register 1) (.register 2)) := by decide
theorem test_decode_compare : read [0x09, 0x01, 0x03, 0, 0, 0, 0x03, 0x03, 0, 0, 0, 0x05, 0, 0, 0, 0, 0]
    = some (.compare .ne (.constant 3) (.constant 5)) := by decide
theorem test_decode_branch : read [0x0A, 0x02, 0x03, 0, 0, 0, 0x3A] = some (.branch .gt (.constant 58)) := by decide
theorem test_decode_read_input : read [0x0B, 0x00, 0x01, 0, 0, 0, 0x02] = some (.readInput .eq (.registerValue 2)) := by
  decide
theorem test_decode_write_output :
    read [0x0C, 0x00, 0x02, 0x00, 0x01, 0x00, 0x2C] = some (.writeOutput .eq (.pointer 300)) := by decide
theorem test_decode_disk_read : read [0x0D, 0x00, 0x03, 0, 0, 0, 0x64, 0x00, 0, 0, 0, 0x01, 0, 0, 0, 0, 0]
    = some (.diskRead .eq (.constant 100) (.register 1)) := by decide
theorem test_decode_disk_write : read [0x0E, 0x00, 0x03, 0x08, 0, 0, 0x05, 0x00, 0, 0, 0, 0x01, 0, 0, 0, 0, 0]
    = some (.diskWrite .eq (.constant (-5)) (.register 1)) := by decide
theorem test_decode_nested_execution : read [0x0F, 0x00, 0x03, 0, 0x01, 0, 0, 0x03, 0, 0, 0, 0x0E, 0, 0, 0, 0, 0]
    = some (.nestedExecution .eq (.constant 256) (.constant 14)) := by decide
theorem test_decode_halt_ignores_its_slot : read [0x10, 0x00, 0xEE, 9, 9, 9, 9] = some (.halt .eq) := by decide
theorem test_decode_refusals :
    read [0x11, 0x00] = none ∧ read [0x10] = none ∧ read [0x10, 0, 0, 0, 0, 0] = none ∧
      read [0x10, 0x06, 0, 0, 0, 0, 0] = none := by decide
theorem test_decode_invalid_mode : read [0x0C, 0x00, 0xFF, 0, 0, 0, 0] = some (.writeOutput .eq (.invalid 0xFF)) := by
  decide
theorem test_encode_assembles_the_words_of_the_spec :
    encode (.move .eq (.constant 5) (.register 0)) = [0, 0, 0x03, 0, 0, 0, 0x05, 0x00, 0, 0, 0, 0x00, 0, 0, 0, 0, 0] ∧
      encode (.branch .eq (.constant (-1))) = [0x0A, 0x00, 0x03, 0x08, 0x00, 0x00, 0x01] := by decide

/-! ### One step of each instruction (tables 2.4 to 2.11) -/

theorem test_move_stores_a_negative_number :
    stepTo { machine [0, 0, 0x03, 0x08, 0x04, 0x00, 0xD2, 0x01, 0, 0, 0, 0x02, 0, 0, 0, 0, 0] [0, 0, 500] with
        ram := cells 499 [7, 7, 7, 7, 7, 7] }
      (fun t => decide (t.ram = cells 499 [7, 0x08, 0x04, 0x00, 0xD2, 7]) && decide (t.reg 2 = 500) && decide (t.pc = 17))
      = true := by decide
theorem test_move_to_constant_faults :
    stepTo (machine [0, 0, 0x03, 0, 0, 0, 0x05, 0x03, 0, 0, 0, 0x09, 0, 0, 0, 0, 0] []) (faultedWith 6 1 0 0) = true := by
  decide
theorem test_add_wraps : aluGives 0x01 2147483647 1 (-2147483648) = true := by decide
theorem test_add_out_of_range_for_ram_faults :
    stepTo { machine [0x01, 0, 0, 0, 0, 0, 0, 0, 0, 0, 0, 1, 0x02, 0, 0, 0, 0x64] [65535, 1] with ram := cells 100 [1, 2, 3, 4] }
      (fun t => faultedWith 9 65536 0 0 t && decide (t.ram = cells 100 [1, 2, 3, 4])) = true := by decide
theorem test_subtract : aluGives 0x02 (-256) 15 (-271) = true := by decide
theorem test_subtract_over_its_own_source :
    stepTo { machine [0x02, 0, 0x02, 0, 0, 0, 0x64, 0x03, 0, 0, 0, 0x01, 0x02, 0, 0, 0, 0x64] [] with
        ram := cells 100 [0, 1, 0, 0] }
      (fun t => decide (t.ram = cells 100 [0, 0, 0, 0xFF])) = true := by decide
theorem test_multiply_wraps : aluGives 0x03 123456 (-98765) 691770048 = true := by decide
theorem test_multiply_wraps_to_the_least_word : aluGives 0x03 65536 32768 (-2147483648) = true := by decide
theorem test_divide_truncates : aluGives 0x04 (-7) 2 (-3) = true := by decide
theorem test_divide_by_zero_before_the_destination :
    stepTo (machine [0x04, 0, 0x03, 0, 0, 0, 0x07, 0x03, 0, 0, 0, 0, 0x03, 0, 0, 0, 0] []) (faultedWith 10 7 0 0) = true := by
  decide
theorem test_modulo_takes_the_sign_of_the_dividend : aluGives 0x05 (-7) 2 (-1) = true := by decide
theorem test_modulo_of_the_least_word : aluGives 0x05 (-2147483648) (-1) 0 = true := by decide
theorem test_bitwise_and : aluGives 0x06 (-7) (-2) (-8) = true := by decide
theorem test_bitwise_and_mixed : aluGives 0x06 123456 (-98765) 25088 = true := by decide
theorem test_bitwise_or : aluGives 0x07 (-256) 15 (-241) = true := by decide
theorem test_bitwise_or_mixed : aluGives 0x07 123456 (-98765) (-397) = true := by decide
theorem test_bitwise_xor : aluGives 0x08 7 (-2) (-7) = true := by decide
theorem test_bitwise_xor_mixed : aluGives 0x08 123456 (-98765) (-25485) = true := by decide
theorem test_compare_writes_the_difference :
    stepTo (machine [0x09, 0, 0x03, 0, 0, 0, 3, 0x03, 0, 0, 0, 5, 0, 0, 0, 0, 0] [])
      (fun t => decide (t.flag = -2) && decide (t.pc = 17)) = true := by decide
theorem test_compare_wraps :
    stepTo (machine [0x09, 0, 0, 0, 0, 0, 0, 0, 0, 0, 0, 1, 0, 0, 0, 0, 0] [2147483647, -1])
      (fun t => decide (t.flag = -2147483648)) = true := by decide
theorem test_branch_to_the_end :
    stepTo (machine ([0x0A, 0, 0x03, 0, 0, 0, 0x43] ++ List.replicate 60 0) []) (fun t => decide (t.pc = 67)) = true := by
  decide
theorem test_branch_past_the_end_faults :
    stepTo (machine ([0x0A, 0, 0x03, 0, 0, 0, 0x44] ++ List.replicate 60 0) []) (faultedWith 11 68 0 0) = true := by
  decide
theorem test_read_input_stores_the_byte_as_a_number :
    stepTo { machine [0x0B, 0, 0x01, 0, 0, 0, 2] [0, 0, 300] with cin := [0xFF, 0x41], ram := cells 300 [9, 9, 9, 9] }
      (fun t => decide (t.ram = cells 300 [0, 0, 0, 0xFF]) && decide (t.cin = [0x41]) && decide (t.pc = 7)) = true := by
  decide
theorem test_read_input_fault_consumes_nothing :
    stepTo { machine [0x0B, 0, 0x03, 0, 0, 0, 0] [] with cin := [0x41] }
      (fun t => faultedWith 6 0 0 0 t && decide (t.cin = [0x41])) = true := by decide
theorem test_write_output_takes_the_low_byte :
    stepTo (machine [0x0C, 0, 0, 0, 0, 0, 0] [321]) (fun t => decide (t.cout = [0x41]) && decide (t.pc = 7)) = true := by
  decide
theorem test_write_output_of_a_number_in_ram :
    stepTo { machine [0x0C, 0, 0x02, 0, 0x01, 0, 0x2C] [] with ram := cells 300 [8, 0, 0, 1] }
      (fun t => decide (t.cout = [0xFF])) = true := by decide
set_option maxRecDepth 4000 in
theorem test_disk_read_decodes :
    stepTo { machine [0x0D, 0, 0x03, 0, 0, 0, 0x64, 0, 0, 0, 0, 1, 0, 0, 0, 0, 0] [] with
        disk := disk200 [0xF8, 0xFF, 0xFF, 0xFF] }
      (fun t => decide ((t.reg 1).toInt = -69615) && decide (t.pc = 17)) = true := by decide
set_option maxRecDepth 4000 in
theorem test_disk_read_past_the_end_faults :
    stepTo { machine [0x0D, 0, 0x03, 0, 0, 0, 0xC5, 0x03, 0, 0, 0, 1, 0, 0, 0, 0, 0] [] with disk := disk200 [] }
      (faultedWith 8 197 0 0) = true := by decide
set_option maxRecDepth 4000 in
theorem test_disk_write_unaligned :
    stepTo { machine [0x0E, 0, 0x03, 0x08, 0, 0, 5, 0, 0, 0, 0, 1, 0, 0, 0, 0, 0] [0, 7] with disk := disk200 [] }
      (fun t => decide ((t.disk.drop 6).take 6 = [0, 8, 0, 0, 5, 0]) && decide (t.disk.length = 200)) = true := by decide
set_option maxRecDepth 4000 in
theorem test_disk_write_out_of_range_faults :
    stepTo { machine [0x0E, 0, 0, 0, 0, 0, 0, 0x03, 0, 0, 0, 0xC5, 0, 0, 0, 0, 0] [65536] with disk := disk200 [] }
      (faultedWith 8 197 0 0) = true := by decide
theorem test_nested_execution_at_the_last_range :
    stepTo (machine [0x0F, 0, 0x03, 0, 0xFF, 0, 0xF9, 0x03, 0, 0, 0, 7, 0, 0, 0, 0, 0] [])
      (fun t => decide (t.frames = [{ space := .bios, base := 0, len := 17, pc := 17 },
        { space := .ram, base := 65529, len := 7, pc := 0 }])) = true := by decide
theorem test_nested_execution_too_deep_faults :
    stepTo { machine [0x0F, 0, 0x03, 0, 1, 0, 0, 0x03, 0, 0, 0, 0x0E, 0, 0, 0, 0, 0] [] with maxDepth := 0 }
      (faultedWith 13 1 0 0) = true := by decide
theorem test_halt_stops_at_its_own_pc :
    stepTo (machine [0x10, 0, 0xEE, 9, 9, 9, 9] [])
      (fun t => decide (t.status = .halted .haltOp) && decide (t.pc = 0)) = true := by decide
theorem test_halt_skipped :
    stepTo (machine [0x10, 1, 0, 0, 0, 0, 0] []) (fun t => decide (t.status = .running) && decide (t.pc = 7)) = true := by
  decide

/-! ### The step around the instructions (table 2.5) -/

theorem test_skip_resolves_nothing :
    stepTo (machine [0, 1, 0xEE, 0xFF, 0xFF, 0xFF, 0xFF, 0xEE, 1, 2, 3, 4, 0xEE, 5, 6, 7, 8] [])
      (fun t => decide (t.status = .running) && decide (t.pc = 17)) = true := by decide
theorem test_decode_faults :
    stepTo (machine [0x11, 0] []) (faultedWith 1 17 0 0) = true ∧
      stepTo (machine [0x10] []) (faultedWith 3 0 0 0) = true ∧
      stepTo (machine [0x00, 9, 0, 0, 0, 0, 0] []) (faultedWith 3 0 0 0) = true ∧
      stepTo (machine [0x10, 6, 0, 0, 0, 0, 0] []) (faultedWith 2 6 0 0) = true := by decide
theorem test_reset_then_exhausted : stepTo State.reset (fun t => decide (t.status = .halted .exhausted)) = true := by decide
theorem test_reset_memory_is_canonical : State.reset.ram.wf = true := by decide
theorem test_fetch_word_runs_first :
    stepTo (State.reset.withFetchWord 136 0x0000000000000000000005000000030000)
      (fun t => decide (t.reg 0 = 5) && decide (t.pc = 17)) = true := by decide

/-- A running frame that reaches outside its space: the only kind of state in which the model stops. The spec rules it
out (R16), and it is not well formed. -/
theorem test_the_stop_needs_an_impossible_frame :
    let s := { machine [] [] with current := { space := .bios, base := 0, len := 9, pc := 0 } }
    s.Inv = false ∧ step s = .fault (.fetchOutsideSpace .bios 0) := ⟨by decide, rfl⟩

/-! ### Witnesses: states and operands that meet the hypotheses of the statements, clause by clause -/

/-- A machine with RAM cells written, a 12-byte disk and one input byte. -/
def rich : State :=
  { machine (List.replicate 34 0) [5, -2, 65532, 65535, -1, -2147483648, 0] with
    ram := cells 100 [8, 0, 0, 1] ++ cells 65532 [0, 0xFF, 0, 0xFF]
    disk := [0, 0, 0, 42, 0, 0, 0, 0, 0xF8, 0xFF, 0xFF, 0xFF]
    cin := [0xFF] }

/-- `rich` at the start of a nested frame of length 14 at 256. -/
def nested : State :=
  { rich with
    current := { space := .ram, base := 256, len := 14, pc := 0 }
    callers := [{ space := .bios, base := 0, len := 34, pc := 17 }] }

theorem witness_DecodeNumberFormula :
    ((8 : Byte) ≠ 0 ∧ (8 : Byte).toNat % 8 = 0 ∧ dec ⟨8, 0, 0, 5⟩ = -5) ∧
      (¬((0 : Byte) ≠ 0 ∧ (0 : Byte).toNat % 8 = 0) ∧ dec ⟨0, 0, 255, 255⟩ = 4335) ∧
      (¬((0x0B : Byte) ≠ 0 ∧ (0x0B : Byte).toNat % 8 = 0) ∧ dec ⟨0x0B, 0, 0, 5⟩ = 8) := by decide

theorem witness_DecodedNumbersFillTheirRange :
    dec ⟨0xF8, 0xFF, 0xFF, 0xFF⟩ = -69615 ∧ dec ⟨0xFF, 0xFF, 0xFF, 0xFF⟩ = 69622 := by decide

theorem witness_EncodeNumberFormula :
    enc (-65536) = none ∧ enc 65536 = none ∧ enc (-65535) = some ⟨8, 255, 0, 255⟩ ∧ enc 65535 = some ⟨0, 255, 0, 255⟩ ∧
      enc 0 = some ⟨0, 0, 0, 0⟩ ∧ enc (-1) = some ⟨8, 0, 0, 1⟩ := by decide

theorem witness_EncodeThenDecodeGivesTheValue :
    (-65535 : Int) ≤ -65535 ∧ (-65535 : Int) ≤ 65535 ∧ dec ⟨8, 255, 0, 255⟩ = -65535 ∧ dec ⟨0, 255, 0, 255⟩ = 65535 := by
  decide

theorem witness_DecodeOfEncodeIsTheInstruction :
    (Instr.add .nlt (.constant 69622) (.registerValue (-69615)) (.invalid 255)).wellFormed = true := by decide

theorem witness_DecodedInstructionsAreWellFormed : decode [0x10, 0, 1, 2, 3, 4, 5] = .ok (.halt .eq) := by decide

theorem witness_DecoderChecksInOrder :
    ([0x10] : List Byte).length < 2 ∧ (0x11 : Byte).toNat > 0x10 ∧ (0x10 : Byte).toNat ≤ 0x10 ∧
      ([0x10, 0, 0, 0, 0, 0] : List Byte).length < 7 ∧ 7 ≤ ([0x10, 6, 0, 0, 0, 0, 0] : List Byte).length ∧
      (6 : Byte).toNat > 5 ∧ (5 : Byte).toNat ≤ 5 ∧
      spelled 0x0E .nlt (.constant (-5)) (.register 1) (.register 0) = some (.diskWrite .nlt (.constant (-5)) (.register 1)) ∧
      decode [0x0E, 5, 0x03, 0x08, 0, 0, 5, 0, 0, 0, 0, 1, 0, 0, 0, 0, 0]
        = .ok (.diskWrite .nlt (.constant (-5)) (.register 1)) := by decide

theorem witness_UnusedSlotBytesAreIgnored :
    decode [0x10, 0, 0, 0, 0, 0, 0] = .ok (.halt .eq) ∧
      (Instr.halt .eq).length ≤ ([0x10, 0, 1, 2, 3, 4, 5] : List Byte).length ∧
      ∀ k, k < 2 + 5 * (Instr.halt .eq).operands.length →
        ([0x10, 0, 1, 2, 3, 4, 5] : List Byte).getD k 0 = ([0x10, 0, 0, 0, 0, 0, 0] : List Byte).getD k 0 := by decide

theorem witness_StepRunsTheDecodedInstruction :
    let s := machine [0x10, 0, 0, 0, 0, 0, 0] []
    s.status = .running ∧ s.pc ≠ s.len ∧ s.fetchWindow = .ok [0x10, 0, 0, 0, 0, 0, 0] ∧
      decode [0x10, 0, 0, 0, 0, 0, 0] = .ok (.halt .eq) := by decide

theorem witness_StepRunsTheEncodedInstruction :
    let i := Instr.branch .eq (.constant (-1))
    let s := machine (encode i) []
    s.Inv = true ∧ s.status = .running ∧ i.wellFormed = true ∧ s.pc + i.length ≤ s.len ∧
      ∀ k, k < i.length → s.streamByte (s.pc + k) = (encode i)[k]? := by decide

theorem witness_ExhaustedFrameEnds :
    let s := machine [] []
    let s' := nested.setPc 14
    s.status = .running ∧ s.pc = s.len ∧ s.depth = 0 ∧ s'.status = .running ∧ s'.pc = s'.len ∧
      s'.callers = { space := .bios, base := 0, len := 34, pc := 17 } :: [] := by decide

theorem witness_UndecodableStatementRaises_no_header :
    let s := machine [0x10] []
    s.Inv = true ∧ s.status = .running ∧ s.pc < s.len ∧ s.pc + 2 > s.len := by decide

theorem witness_UndecodableStatementRaises_opcode :
    let s := machine [0x11, 0] []
    s.Inv = true ∧ s.status = .running ∧ s.pc < s.len ∧ s.pc + 2 ≤ s.len ∧ s.streamByte s.pc = some 0x11 ∧
      s.streamByte (s.pc + 1) = some 0 ∧ (0x11 : Byte).toNat > 0x10 := by decide

theorem witness_UndecodableStatementRaises_length :
    let s := machine [0x10, 0, 0, 0, 0, 0] []
    s.Inv = true ∧ s.status = .running ∧ s.pc < s.len ∧ s.streamByte s.pc = some 0x10 ∧ s.streamByte (s.pc + 1) = some 0 ∧
      Opcode.halt.toByte = 0x10 ∧ s.pc + Opcode.halt.length > s.len := by decide

theorem witness_UndecodableStatementRaises_condition :
    let s := machine [0x10, 6, 0, 0, 0, 0, 0] []
    s.Inv = true ∧ s.status = .running ∧ s.pc < s.len ∧ s.streamByte s.pc = some 0x10 ∧ s.streamByte (s.pc + 1) = some 6 ∧
      Opcode.halt.toByte = 0x10 ∧ s.pc + Opcode.halt.length ≤ s.len ∧ (6 : Byte).toNat > 5 := by decide

theorem witness_SkippedStatementOnlyAdvances : (Instr.halt .ne).cond.holds rich.flag = false := by decide

theorem witness_StoppedMachineStaysAsItIs :
    (rich.raise (.badRegister 16)).status ≠ .running ∧ (rich.endFrame .exhausted).status ≠ .running := by decide

theorem witness_OperandValueByMode :
    rich.readOperand (.register 15) = .ok 0 ∧ rich.readOperand (.registerValue 2) = .ok 65535 ∧
      rich.readOperand (.pointer 65532) = .ok 65535 ∧ rich.readOperand (.pointer 100) = .ok (-1) ∧
      rich.readOperand (.register 16) = .error (.badRegister 16) ∧
      rich.readOperand (.registerValue 3) = .error (.ramOutOfRange 65535) ∧
      rich.readOperand (.pointer 65533) = .error (.ramOutOfRange 65533) ∧
      rich.readOperand (.pointer (-1)) = .error (.ramOutOfRange (-1)) ∧
      rich.readOperand (.registerValue (-1)) = .error (.badRegister (-1)) ∧
      rich.readOperand (.registerValue 4) = .error (.ramOutOfRange (-1)) ∧
      rich.readOperand (.invalid 4) = .error (.invalidMode 4) := by decide

theorem witness_ConstantIsNoDestination :
    rich.resolve (.constant 9) = .ok (.const 9) ∧ rich.resolve (.register 15) = .ok (.reg 15) ∧
      rich.resolve (.pointer 65532) = .ok (.ram 65532) ∧ rich.resolve (.register (-1)) = .error (.badRegister (-1)) := by
  decide

theorem witness_WrittenOperandReadsBack :
    rich.resolveDest 2 (.register 15) = .ok (.reg 15) ∧
      rich.store (.reg 15) 7 = .ok (rich.setReg 15 7) ∧
      rich.resolveDest 2 (.registerValue 2) = .ok (.ram 65532) ∧
      rich.store (.ram 65532) (-65535) = .ok (rich.setRamQuad 65532 ⟨8, 255, 0, 255⟩) ∧
      (-65535 : Int) ≤ (-65535 : Word).toInt ∧ (65535 : Word).toInt ≤ 65535 ∧
      (-65536 : Word).toInt < -65535 ∧ (65536 : Word).toInt > 65535 ∧
      Operand.constant 9 = .constant 9 := by decide

/-- A destination register, and a destination in RAM at the last address with the largest and least numbers. -/
theorem witness_MoveCopiesTheValue :
    (Cond.eq.holds rich.flag = true ∧ rich.readOperand (.register 5) = .ok (-2147483648) ∧
        rich.resolveDest 1 (.register 15) = .ok (.reg 15) ∧ Storable (.reg 15) (-2147483648)) ∧
      (rich.readOperand (.constant 65535) = .ok 65535 ∧ rich.resolveDest 1 (.registerValue 2) = .ok (.ram 65532) ∧
        Storable (.ram 65532) 65535 ∧ Storable (.ram 65532) (-65535)) :=
  ⟨⟨by decide, by decide, by decide, trivial⟩, by decide, by decide, ⟨by decide, by decide⟩, ⟨by decide, by decide⟩⟩

theorem witness_MoveFaultsInOrder :
    Cond.eq.holds rich.flag = true ∧ rich.readOperand (.invalid 4) = .error (.invalidMode 4) ∧
      rich.readOperand (.constant 5) = .ok 5 ∧ rich.resolveDest 1 (.constant 9) = .error (.writeToConstant 1) ∧
      rich.readOperand (.constant 65536) = .ok 65536 ∧ rich.resolveDest 1 (.pointer 0) = .ok (.ram 0) ∧
      ¬Storable (.ram 0) 65536 ∧ ¬Storable (.ram 0) (-65536) :=
  ⟨by decide, by decide, by decide, by decide, by decide, by decide, fun h => absurd h.2 (by decide),
    fun h => absurd h.1 (by decide)⟩

/-- A register destination that is a source, with a sum that wraps; and RAM with the largest number it takes. -/
theorem witness_AddSubtractMultiplyWriteTheWrappedResult :
    (Cond.eq.holds rich.flag = true ∧ rich.readOperand (.register 5) = .ok (-2147483648) ∧
        rich.readOperand (.register 4) = .ok (-1) ∧ anyValues (-2147483648) (-1) ∧
        rich.resolveDest 2 (.register 5) = .ok (.reg 5) ∧
        Storable (.reg 5) (wrap32 ((-2147483648 : Word).toInt + (-1 : Word).toInt))) ∧
      (rich.readOperand (.constant 65534) = .ok 65534 ∧ rich.readOperand (.constant 1) = .ok 1 ∧ anyValues 65534 1 ∧
        rich.resolveDest 2 (.registerValue 2) = .ok (.ram 65532) ∧
        Storable (.ram 65532) (wrap32 ((65534 : Word).toInt + (1 : Word).toInt))) :=
  ⟨⟨by decide, by decide, by decide, trivial, by decide, trivial⟩, by decide, by decide, trivial, by decide,
    by decide, by decide⟩

theorem witness_DivideModuloWriteQuotientAndRemainder :
    (Cond.eq.holds rich.flag = true ∧ rich.readOperand (.register 5) = .ok (-2147483648) ∧
        rich.readOperand (.register 4) = .ok (-1) ∧ divisorNotZero (-2147483648) (-1) ∧
        rich.resolveDest 2 (.register 0) = .ok (.reg 0) ∧
        Storable (.reg 0) (wrap32 ((-2147483648 : Word).toInt.tdiv (-1 : Word).toInt))) ∧
      (rich.readOperand (.constant (-7)) = .ok (-7) ∧ rich.readOperand (.constant 2) = .ok 2 ∧ divisorNotZero (-7) 2 ∧
        rich.resolveDest 2 (.pointer 100) = .ok (.ram 100) ∧
        Storable (.ram 100) (wrap32 ((-7 : Word).toInt.tdiv (2 : Word).toInt))) :=
  ⟨⟨by decide, by decide, by decide, by unfold divisorNotZero; decide, by decide, trivial⟩, by decide, by decide,
    by unfold divisorNotZero; decide, by decide, by decide, by decide⟩

theorem witness_BitwiseInstructionsWriteEachBit :
    Cond.eq.holds rich.flag = true ∧ rich.readOperand (.pointer 100) = .ok (-1) ∧
      rich.readOperand (.constant 255) = .ok 255 ∧ anyValues (-1) 255 ∧
      rich.resolveDest 2 (.register 15) = .ok (.reg 15) ∧
      Storable (.reg 15) (BitVec.ofFnLE fun i : Fin 32 => (-1 : Word).getLsbD i && (255 : Word).getLsbD i) :=
  ⟨by decide, by decide, by decide, trivial, by decide, trivial⟩

theorem witness_BinaryFaultsInOrder :
    Cond.eq.holds rich.flag = true ∧ rich.readOperand (.pointer 65533) = .error (.ramOutOfRange 65533) ∧
      rich.readOperand (.register 0) = .ok 5 ∧ rich.readOperand (.register 16) = .error (.badRegister 16) ∧
      rich.readOperand (.register 4) = .ok (-1) ∧ anyValues 5 (-1) ∧ divisorNotZero 5 (-1) ∧
      rich.resolveDest 2 (.constant 0) = .error (.writeToConstant 2) ∧ rich.resolveDest 2 (.pointer 100) = .ok (.ram 100) ∧
      rich.readOperand (.constant 65535) = .ok 65535 ∧ rich.readOperand (.constant 1) = .ok 1 ∧
      ¬Storable (.ram 100) (wrap32 ((65535 : Word).toInt + (1 : Word).toInt)) :=
  ⟨by decide, by decide, by decide, by decide, by decide, trivial, by unfold divisorNotZero; decide, by decide,
    by decide, by decide, by decide, fun h => absurd h.2 (by decide)⟩

theorem witness_ZeroDivisorRaises :
    Cond.eq.holds rich.flag = true ∧ rich.readOperand (.constant 7) = .ok 7 ∧ rich.readOperand (.register 6) = .ok 0 ∧
      (0 : Word).toInt = 0 := by decide

theorem witness_DivisionLaws :
    (-1 : Word).toInt ≠ 0 ∧ ((-2147483648 : Word).toInt = -2147483648 ∧ (-1 : Word).toInt = -1) ∧
      ¬((-2147483648 : Word).toInt = -2147483648 ∧ (1 : Word).toInt = -1) ∧ aluDivide (-7) 2 = .ok (-3) ∧
      aluModulo (-7) 2 = .ok (-1) := by decide

theorem witness_CompareWritesTheFlag :
    Cond.eq.holds rich.flag = true ∧ rich.readOperand (.constant 3) = .ok 3 ∧ rich.readOperand (.register 0) = .ok 5 := by
  decide

theorem witness_ConditionsAfterCompare :
    (-2147483648 ≤ (1073741823 : Word).toInt - (-1073741823 : Word).toInt ∧
        (1073741823 : Word).toInt - (-1073741823 : Word).toInt ≤ 2147483647) ∧
      (2147483647 : Word).toInt - (-1 : Word).toInt > 2147483647 ∧
      (-2147483648 : Word).toInt - (1 : Word).toInt < -2147483648 ∧
      (1073741823 : Word).toInt.natAbs < 1073741824 := by decide

theorem witness_BranchMovesThePc :
    Cond.eq.holds rich.flag = true ∧ rich.readOperand (.register 6) = .ok 0 ∧ 0 ≤ (0 : Word).toInt ∧
      rich.readOperand (.constant 34) = .ok 34 ∧ (34 : Word).toInt ≤ rich.len := by decide

theorem witness_CompareBranchAndOutputFaults :
    Cond.eq.holds rich.flag = true ∧ rich.readOperand (.invalid 9) = .error (.invalidMode 9) ∧
      rich.readOperand (.register 0) = .ok 5 ∧ rich.readOperand (.pointer (-4)) = .error (.ramOutOfRange (-4)) ∧
      rich.readOperand (.constant 35) = .ok 35 ∧ (35 : Word).toInt > rich.len ∧
      rich.readOperand (.register 4) = .ok (-1) ∧ (-1 : Word).toInt < 0 := by decide

theorem witness_ReadInputStoresTheByte :
    Cond.eq.holds rich.flag = true ∧ rich.resolveDest 0 (.registerValue 2) = .ok (.ram 65532) ∧
      rich.resolveDest 0 (.register 15) = .ok (.reg 15) ∧ rich.cin = 0xFF :: [] := by decide

theorem witness_ReadInputDestinationFaults :
    Cond.eq.holds rich.flag = true ∧ rich.resolveDest 0 (.constant 0) = .error (.writeToConstant 0) := by decide

theorem witness_BlockedMachineWaitsForInput : (machine [0x0B, 0, 0, 0, 0, 0, 0] []).blocked = true := by decide

theorem witness_WriteOutputAppendsTheLowByte :
    Cond.eq.holds rich.flag = true ∧ rich.readOperand (.pointer 100) = .ok (-1) := by decide

/-- The last offset of the disk. -/
theorem witness_DiskReadCopiesTheNumber :
    Cond.eq.holds rich.flag = true ∧ rich.readOperand (.constant 8) = .ok 8 ∧ 0 ≤ (8 : Word).toInt ∧
      (8 : Word).toInt + 4 ≤ rich.disk.length ∧
      (-69615 : Word).toInt =
        dec ⟨rich.diskByte (8 : Word).toInt.toNat, rich.diskByte ((8 : Word).toInt.toNat + 1),
          rich.diskByte ((8 : Word).toInt.toNat + 2), rich.diskByte ((8 : Word).toInt.toNat + 3)⟩ ∧
      rich.resolveDest 1 (.register 0) = .ok (.reg 0) ∧ Storable (.reg 0) (-69615) :=
  ⟨by decide, by decide, by decide, by decide, by decide, by decide, trivial⟩

theorem witness_DiskWriteStoresTheNumber :
    Cond.eq.holds rich.flag = true ∧ rich.readOperand (.register 3) = .ok 65535 ∧ rich.readOperand (.constant 8) = .ok 8 ∧
      rich.readOperand (.constant 0) = .ok 0 ∧ 0 ≤ (0 : Word).toInt ∧ (8 : Word).toInt + 4 ≤ rich.disk.length ∧
      -65535 ≤ (-65535 : Word).toInt ∧ (65535 : Word).toInt ≤ 65535 := by decide

theorem witness_DiskFaultsInOrder :
    Cond.eq.holds rich.flag = true ∧ rich.readOperand (.register 16) = .error (.badRegister 16) ∧
      rich.readOperand (.register 0) = .ok 5 ∧ rich.readOperand (.constant 9) = .ok 9 ∧
      (9 : Word).toInt + 4 > rich.disk.length ∧ rich.readOperand (.register 4) = .ok (-1) ∧ (-1 : Word).toInt < 0 ∧
      rich.readOperand (.constant 8) = .ok 8 ∧ 0 ≤ (8 : Word).toInt ∧ (8 : Word).toInt + 4 ≤ rich.disk.length ∧
      rich.resolveDest 1 (.constant 1) = .error (.writeToConstant 1) ∧ rich.readOperand (.constant 65536) = .ok 65536 ∧
      (65536 : Word).toInt > 65535 ∧ (-65536 : Word).toInt < -65535 := by decide

/-- disk-read's last fault (table 2.10, `disk-read.eq #100 -> [50]` on `F8 FF FF FF`), here at the last disk offset. -/
theorem witness_DiskFaultsInOrder_encodeRange :
    Cond.eq.holds rich.flag = true ∧ rich.readOperand (.constant 8) = .ok 8 ∧ 0 ≤ (8 : Word).toInt ∧
      (8 : Word).toInt + 4 ≤ rich.disk.length ∧
      (-69615 : Word).toInt =
        dec ⟨rich.diskByte (8 : Word).toInt.toNat, rich.diskByte ((8 : Word).toInt.toNat + 1),
          rich.diskByte ((8 : Word).toInt.toNat + 2), rich.diskByte ((8 : Word).toInt.toNat + 3)⟩ ∧
      rich.resolveDest 1 (.pointer 100) = .ok (.ram 100) ∧ ¬Storable (.ram 100) (-69615) :=
  ⟨by decide, by decide, by decide, by decide, by decide, by decide, fun h => absurd h.1 (by decide)⟩

/-- A range that ends at the last byte of RAM, called from the deepest frame that may call. -/
theorem witness_NestedExecutionPushesAFrame :
    let s := { nested with maxDepth := 2 }
    Cond.eq.holds s.flag = true ∧ s.readOperand (.constant 65529) = .ok 65529 ∧ s.readOperand (.constant 7) = .ok 7 ∧
      0 < (7 : Word).toInt ∧ 0 ≤ (65529 : Word).toInt ∧ (65529 : Word).toInt + (7 : Word).toInt ≤ s.ramSize ∧
      s.depth + 1 ≤ s.maxDepth := by decide

theorem witness_ZeroLengthCallOnlyAdvances :
    Cond.eq.holds rich.flag = true ∧ rich.readOperand (.register 4) = .ok (-1) ∧ rich.readOperand (.register 6) = .ok 0 ∧
      (0 : Word).toInt = 0 ∧ rich.readOperand (.pointer 65533) = .error (.ramOutOfRange 65533) := by decide

theorem witness_CallFaultsInOrder :
    let s := { nested with maxDepth := 1 }
    Cond.eq.holds s.flag = true ∧ s.readOperand (.register 4) = .ok (-1) ∧ (-1 : Word).toInt < 0 ∧
      s.readOperand (.constant 65530) = .ok 65530 ∧ s.readOperand (.constant 7) = .ok 7 ∧ 0 < (7 : Word).toInt ∧
      (65530 : Word).toInt + (7 : Word).toInt > s.ramSize ∧
      s.readOperand (.constant 65529) = .ok 65529 ∧ (65529 : Word).toInt + (7 : Word).toInt ≤ s.ramSize ∧
      s.depth + 1 > s.maxDepth := by decide

theorem witness_HaltEndsTheEnclosingFrame :
    Cond.eq.holds rich.flag = true ∧ rich.depth = 0 ∧
      nested.callers = { space := .bios, base := 0, len := 34, pc := 17 } :: [] ∧ Cond.eq.holds nested.flag = true := by
  decide

theorem witness_CallAndHaltResumeTheCaller :
    exec (.nestedExecution .eq (.constant 256) (.constant 14)) rich = .next nested ∧ nested.callers ≠ rich.callers ∧
      ((nested.setReg 0 9).setPc 7).callers = nested.callers ∧
      Cond.eq.holds ((nested.setReg 0 9).setPc 7).flag = true := ⟨rfl, by decide, by decide, by decide⟩

theorem witness_FaultsArePrecise :
    let s := machine [0x11, 0] []
    s.status = .running ∧ step s = .next (s.raise (.illegalOpcode 0x11)) ∧
      (s.raise (.illegalOpcode 0x11)).status = .faulted := ⟨rfl, rfl, rfl⟩

theorem witness_OnlyCompareWritesTheFlag :
    exec (.compare .eq (.constant 3) (.constant 5)) rich = .next ((rich.setFlag (-2)).advance 17) ∧
      ((rich.setFlag (-2)).advance 17).flag ≠ rich.flag := ⟨rfl, by decide⟩

theorem witness_OnlyRegisterDestinationsChangeRegisters :
    exec (.move .eq (.constant 9) (.register 15)) rich = .next ((rich.setReg 15 9).advance 17) ∧
      ((rich.setReg 15 9).advance 17).reg 15 ≠ rich.reg 15 := ⟨rfl, by decide⟩

theorem witness_OnlyRamDestinationsChangeRam :
    let t := (rich.setRamQuad 100 ⟨0, 0, 0, 9⟩).advance 17
    exec (.move .eq (.constant 9) (.pointer 100)) rich = .next t ∧ t.ramByte 100 ≠ rich.ramByte 100 ∧
      t.ramByte 103 ≠ rich.ramByte 103 := ⟨rfl, by decide, by decide⟩

theorem witness_DevicesChangeOnlyByTheirInstructions :
    (∃ t, exec (.diskWrite .eq (.constant 7) (.constant 8)) rich = .next t ∧ t.disk ≠ rich.disk) ∧
      (∃ t, exec (.readInput .eq (.register 0)) rich = .next t ∧ t.cin ≠ rich.cin) ∧
      (∃ t, exec (.writeOutput .eq (.constant 65)) rich = .next t ∧ t.cout ≠ rich.cout) :=
  ⟨⟨_, rfl, by decide⟩, ⟨_, rfl, by decide⟩, ⟨_, rfl, by decide⟩⟩

/-- A step that advances, one that suspends the frame and one that resumes the caller. -/
theorem witness_FramesArePushedAndPopped :
    (∃ t, step (machine [0x10, 1, 0, 0, 0, 0, 0] []) = .next t ∧ t.callers = []) ∧
      (∃ t, step (machine [0x0F, 0, 0x03, 0, 1, 0, 0, 0x03, 0, 0, 0, 7, 0, 0, 0, 0, 0] []) = .next t ∧
        t.callers.length = 1) ∧
      step (nested.setPc 14) = .next { nested with current := { space := .bios, base := 0, len := 34, pc := 17 }, callers := [] } :=
  ⟨⟨_, rfl, rfl⟩, ⟨_, rfl, rfl⟩, rfl⟩

theorem witness_ParametersNeverChange :
    step (machine [0x10, 1, 0, 0, 0, 0, 0] []) = .next ((machine [0x10, 1, 0, 0, 0, 0, 0] []).advance 7) := rfl

/-- Each stored byte and the bytes beside them, at the last address of RAM. -/
theorem witness_StoredBytesAreFetched :
    let s := { nested with current := { space := .ram, base := 65529, len := 7, pc := 0 } }
    s.current.space = .ram ∧ 65532 + 4 ≤ s.ramSize ∧ s.current.base + 3 = 65532 ∧ s.current.base + 4 = 65532 + 1 ∧
      s.current.base + 5 = 65532 + 2 ∧ s.current.base + 6 = 65532 + 3 ∧ s.current.base + 2 < 65532 ∧
      65532 + 4 ≤ s.current.base + 7 := by decide

theorem witness_ResetIsWellFormed :
    ({ } : Config).wf = true ∧ ({ nregs := 1, ramSize := 0, maxDepth := 0 } : Config).wf = true ∧
      ({ nregs := 65536, ramSize := 2147483647 } : Config).wf = true ∧ launchOk [] [] = true ∧
      launchOk [0x10] [1, 2, 3, 4] = true := by decide

/-- Well-formed states with nested frames, faulted, halted, and with RAM written; and one step of the first. -/
theorem witness_StepKeepsTheMachineWellFormed :
    nested.Inv = true ∧ (nested.raise (.divideByZero 7)).Inv = true ∧ (rich.endFrame .haltOp).Inv = true ∧
      step (nested.setPc 14) = .next (nested.endFrame .exhausted) := ⟨by decide, by decide, by decide, rfl⟩

/-- The invariant has teeth: a frame outside RAM, a `pc` past its stream, a fault record without a fault, RAM cells out
of order and a halt in a nested frame are all refused. -/
theorem test_inv_refuses :
    ({ nested with current := { space := .ram, base := 65530, len := 7, pc := 0 } } : State).Inv = false ∧
      (nested.setPc 15).Inv = false ∧ ({ nested.raise (.badRange (-1)) with status := .running } : State).Inv = false ∧
      ({ nested with ram := [(5, 1), (4, 1)] } : State).Inv = false ∧
      ({ nested with status := .halted .haltOp } : State).Inv = false := by decide

theorem witness_WellFormedMachineNeverStops : nested.Inv = true ∧ State.reset.Inv = true := by decide

theorem witness_ReachableMachinesAreWellFormed : Reachable State.reset := .launch _ _ _ _ _ (by decide) (by decide)

end Sys2Proof.Tests
end

section
/-! PROOFS. The Number Codec of R30. -/

namespace Sys2Proof.Proofs

open Sys2Proof Sys2Proof.Machine

/-- Settles O1: `dec_cases` in the two branches of R30. In the negated branch `b0` adds nothing to `m`. -/
theorem decodeNumberFormula : Obligations.DecodeNumberFormula := by
  intro b0 b1 b2 b3 m
  have hb0 : b0 ≠ 0 ↔ b0.toNat ≠ 0 := BitVec.toNat_ne_iff_ne.symm
  rw [hb0]
  rcases dec_cases ⟨b0, b1, b2, b3⟩ with ⟨hne, hmod, hdec⟩ | ⟨hpos, hdec⟩
  · have hm : m = b3.toNat + 16 * b2.toNat + 256 * b1.toNat := by
      dsimp only [m] at hmod ⊢
      omega
    exact ⟨fun _ => by rw [hm, hdec], fun hpos => absurd ⟨hne, hmod⟩ hpos⟩
  · exact ⟨fun hneg => absurd hneg hpos, fun _ => hdec⟩

end Sys2Proof.Proofs
end

section
/-! PROOFS. The dispatcher and the Addressing Resolver: what a step does with the bytes it fetches (R91 to R97), and
what an operand slot resolves to (R101, R104). -/

namespace Sys2Proof.Proofs

open Sys2Proof Sys2Proof.Machine

/-! ### The decoder's checks, one rule for each way to refuse -/

theorem decode_of_length_lt_two {bs : List Byte} (h : bs.length < 2) : decode bs = .error .truncated := by
  match bs with
  | [] | [_] => rfl
  | _ :: _ :: _ => simp at h

theorem decode_of_illegal_opcode {op : Byte} (cond : Byte) (rest : List Byte) (hop : Opcode.ofByte op = none) :
    decode (op :: cond :: rest) = .error (.illegalOpcode op) := by
  simp only [decode, hop]

theorem decode_of_length_lt_opcode {op cond : Byte} {rest : List Byte} {code : Opcode}
    (hop : Opcode.ofByte op = some code) (hlen : (op :: cond :: rest).length < code.length) :
    decode (op :: cond :: rest) = .error .truncated := by
  simp only [decode, hop, if_pos hlen]

theorem decode_of_illegal_condition {op cond : Byte} {rest : List Byte} {code : Opcode}
    (hop : Opcode.ofByte op = some code) (hlen : code.length ≤ (op :: cond :: rest).length)
    (hcond : Cond.ofByte cond = none) : decode (op :: cond :: rest) = .error (.illegalCondition cond) := by
  simp only [decode, hop, if_neg (not_lt.mpr hlen), hcond]

theorem opcode_ofByte_eq_none {b : Byte} (h : b.toNat > 0x10) : Opcode.ofByte b = none := by
  rcases Opcode.ofByte_cases b with ⟨_, hb⟩ | ⟨_, _, _, hle, _⟩
  · exact hb
  · omega

theorem cond_ofByte_eq_none {b : Byte} (h : b.toNat > 5) : Cond.ofByte b = none := by
  rcases Cond.ofByte_cases b with ⟨_, hb⟩ | ⟨_, _, _, hle⟩
  · exact hb
  · omega

theorem opcode_length_le (op : Opcode) : op.length ≤ 17 :=
  Opcode.instr_length op .eq [] ▸ (Instr.length_bounds (op.instr .eq [])).2

/-! ### The step -/

section Step

variable {s : State} {bs : List Byte}

theorem step_exhausted (hrun : s.status = .running) (hpc : s.pc = s.len) :
    step s = .next (s.endFrame .exhausted) := by
  rw [step_running hrun, if_pos hpc]

theorem step_of_fetchWindow (hrun : s.status = .running) (hpc : s.pc ≠ s.len) (hbs : s.fetchWindow = .ok bs) :
    step s = s.afterDecode (decode bs) (fun i => exec i s) := by
  rw [step_running hrun, if_neg hpc, hbs]

/-- A running machine raises what the decoder finds wrong with the bytes at `pc`. -/
theorem step_of_decode_error {e : DecodeError} (hrun : s.status = .running) (hpc : s.pc ≠ s.len)
    (hbs : s.fetchWindow = .ok bs) (hdec : decode bs = .error e) : step s = .next (s.raise (s.decodeCause e)) := by
  rw [step_of_fetchWindow hrun hpc hbs, hdec]
  rfl

/-- Where the stream has room for a header, the fetched bytes begin with it (R92). -/
theorem fetchWindow_header (hinv : s.Inv = true) (hroom : s.pc + 2 ≤ s.len) {op cond : Byte}
    (hop : s.streamByte s.pc = some op) (hcond : s.streamByte (s.pc + 1) = some cond) :
    ∃ rest, s.fetchWindow = .ok (op :: cond :: rest) ∧ (op :: cond :: rest).length = min 17 (s.len - s.pc) := by
  obtain ⟨bs, hbs, hlen, hget⟩ := State.fetchWindow_of_inv hinv
  have hop' := (hget 0 (by omega)).symm.trans hop
  have hcond' := (hget 1 (by omega)).symm.trans hcond
  match bs with
  | [] | [_] => simp at hcond'
  | b :: c :: rest =>
    cases hop'
    cases hcond'
    exact ⟨rest, hbs, hlen⟩

end Step

/-- Settles O15: the four checks of R92 to R94 on the fetched bytes. The fetch stops at seventeen bytes, the longest
statement, so a statement fits the fetched bytes exactly when it fits the stream. -/
theorem undecodableStatementRaises : Obligations.UndecodableStatementRaises := by
  intro s hinv hrun hlt
  have raises : ∀ {bs e}, s.fetchWindow = .ok bs → decode bs = .error e →
      step s = .next (s.raise (s.decodeCause e)) := step_of_decode_error hrun hlt.ne
  refine ⟨fun hshort => ?_, fun op cond hroom hop hcond => ?_⟩
  · obtain ⟨bs, hbs, hlen, _⟩ := State.fetchWindow_of_inv hinv
    exact raises hbs (decode_of_length_lt_two (by omega))
  · obtain ⟨rest, hbs, hlen⟩ := fetchWindow_header hinv hroom hop hcond
    refine ⟨fun hillegal => raises hbs (decode_of_illegal_opcode cond rest (opcode_ofByte_eq_none hillegal)), ?_⟩
    rintro code rfl
    have hcode := Opcode.ofByte_toByte code
    have hmax := opcode_length_le code
    refine ⟨fun hshort => ?_, fun hfits hillegal => ?_⟩
    · exact raises hbs (decode_of_length_lt_opcode hcode (by omega))
    · exact raises hbs (decode_of_illegal_condition hcode (by omega) (cond_ofByte_eq_none hillegal))

/-- Settles O14: the two cases of the end of a frame (R91). -/
theorem exhaustedFrameEnds : Obligations.ExhaustedFrameEnds := by
  intro s hrun hpc
  rw [step_exhausted hrun hpc]
  refine ⟨fun hdepth => ?_, fun caller rest hcallers => ?_⟩
  · rw [s.endFrame_top _ (List.eq_nil_of_length_eq_zero hdepth)]
  · rw [s.endFrame_nested _ hcallers]

/-- Settles O16: every instruction is a conditional statement (`exec_eq_conditional`), and a skipped one advances. -/
theorem skippedStatementOnlyAdvances : Obligations.SkippedStatementOnlyAdvances := by
  intro i s hskip
  rw [exec_eq_conditional, State.conditional_skip hskip]
  rfl

/-! ### The conditions -/

theorem holds_ne (c : Word) : Cond.ne.holds c = !Cond.eq.holds c := decide_not

theorem holds_ngt (c : Word) : Cond.ngt.holds c = !Cond.gt.holds c := by
  simp only [Cond.holds, gt_iff_lt, ← not_lt, decide_not]

theorem holds_nlt (c : Word) : Cond.nlt.holds c = !Cond.lt.holds c := by
  simp only [Cond.holds, ge_iff_le, ← not_lt, decide_not]

/-- Settles O17: each condition is its signed comparison with 0, and the second of each pair negates the first. -/
theorem conditionTable : Obligations.ConditionTable := by
  intro c
  refine ⟨decide_eq_true_iff, decide_eq_true_iff, decide_eq_true_iff, decide_eq_true_iff, decide_eq_true_iff,
    decide_eq_true_iff, ?_, ?_, ?_⟩
  · rw [holds_ne]
    exact Bool.self_ne_not _
  · rw [holds_ngt]
    exact Bool.self_ne_not _
  · rw [holds_nlt]
    exact Bool.self_ne_not _

/-! ### The Addressing Resolver -/

section Resolver

variable (s : State) (p : Int)

theorem resolve_register :
    s.resolve (.register p) = if p < 0 ∨ p ≥ s.nregs then .error (.badRegister p) else .ok (.reg p.toNat) := by
  simp only [State.resolve, State.regIndex]
  split <;> rfl

theorem resolve_pointer :
    s.resolve (.pointer p) =
      if p < 0 ∨ p + 4 > s.ramSize then .error (.ramOutOfRange p) else .ok (.ram p.toNat) := by
  simp only [State.resolve, State.ramSpan]
  split <;> rfl

/-- A register in range is a pointer to the address it holds. -/
theorem resolve_registerValue :
    s.resolve (.registerValue p) =
      if p < 0 ∨ p ≥ s.nregs then .error (.badRegister p) else s.resolve (.pointer (s.reg p.toNat).toInt) := by
  simp only [State.resolve, State.regIndex]
  split <;> rfl

theorem resolve_constant : s.resolve (.constant p) = .ok (.const (wrap32 p)) := rfl

theorem resolve_invalid (tag : Byte) : s.resolve (.invalid tag) = .error (.invalidMode tag) := rfl

theorem ofTag_eq_ite (tag : Byte) :
    Operand.ofTag tag p =
      if tag.toNat = 0 then .register p
      else if tag.toNat = 1 then .registerValue p
      else if tag.toNat = 2 then .pointer p
      else if tag.toNat = 3 then .constant p
      else .invalid tag := by
  unfold Operand.ofTag
  split
  case h_5 h0 h1 h2 h3 => rw [if_neg h0, if_neg h1, if_neg h2, if_neg h3]
  all_goals simp only [*, reduceIte, OfNat.ofNat_ne_zero, one_ne_zero, Nat.reduceEqDiff]

variable {s} {k : Nat} {o : Operand}

theorem resolveDest_of_resolve_const {v : Word} (h : s.resolve o = .ok (.const v)) :
    s.resolveDest k o = .error (.writeToConstant k) := by
  simp only [State.resolveDest, h, except_ok_bind]

theorem resolveDest_of_resolve_ok {l : Location} (h : s.resolve o = .ok l) (hl : ∀ v, l ≠ .const v) :
    s.resolveDest k o = .ok l := by
  simp only [State.resolveDest, h, except_ok_bind]
  cases l with
  | reg i => rfl
  | ram a => rfl
  | const v => exact absurd rfl (hl v)

theorem resolveDest_of_resolve_error {e : Cause} (h : s.resolve o = .error e) : s.resolveDest k o = .error e := by
  simp only [State.resolveDest, h, except_error_bind]

end Resolver

/-- Settles O19: the mode tag selects the operand (R68), and each operand resolves by its rule of R101. -/
theorem resolveByModeTag : Obligations.ResolveByModeTag := by
  intro s st k mode p a
  have hslot : decodeSlot st k = Operand.ofTag (st.getD (2 + 5 * k) 0) p := rfl
  rw [hslot, ofTag_eq_ite, apply_ite s.resolve, apply_ite s.resolve, apply_ite s.resolve, apply_ite s.resolve,
    resolve_register, resolve_registerValue, resolve_pointer, resolve_pointer, resolve_constant, resolve_invalid]

/-- Settles O21: the three answers of `Resolve` that `ResolveDest` tells apart (R104). -/
theorem constantIsNoDestination : Obligations.ConstantIsNoDestination := by
  intro s k o
  exact ⟨fun _ => resolveDest_of_resolve_const, fun _ => resolveDest_of_resolve_ok,
    fun _ => resolveDest_of_resolve_error⟩

end Sys2Proof.Proofs
end

section
/-! PROOFS. nested-execution: its body once its operands are read or raise (R160), and the call of length 0 (R165). -/

namespace Sys2Proof.Proofs

open Sys2Proof Sys2Proof.Machine

section NestedExecution

variable {s : State} {offset length : Operand} {o n : Word} {e : Cause}

/-- R165: length 0 is checked before the range and the depth, so neither the offset nor the depth matters. -/
theorem call_zero (s : State) (o : Int) : s.call o 0 = .ok (s.advance lenWide) := if_pos rfl

theorem nestedExecutionBody_of_read (ho : s.readOperand offset = .ok o) (hn : s.readOperand length = .ok n) :
    s.nestedExecutionBody offset length = s.call o.toInt n.toInt := by
  simp only [State.nestedExecutionBody, ho, hn, except_ok_bind]

theorem nestedExecutionBody_of_offset_error (he : s.readOperand offset = .error e) :
    s.nestedExecutionBody offset length = .error e := by
  simp only [State.nestedExecutionBody, he, except_error_bind]

theorem nestedExecutionBody_of_length_error (ho : s.readOperand offset = .ok o)
    (he : s.readOperand length = .error e) : s.nestedExecutionBody offset length = .error e := by
  simp only [State.nestedExecutionBody, ho, he, except_ok_bind, except_error_bind]

end NestedExecution

/-- Settles O43: the body is a call of length 0 (`call_zero`), or raises what reading slot 0 or then slot 1 raises. -/
theorem zeroLengthCallOnlyAdvances : Obligations.ZeroLengthCallOnlyAdvances := by
  intro s c offset length hc
  refine ⟨fun o n ho hn hzero => ?_, fun e he => ?_, fun o e ho he => ?_⟩
  · have hbody : s.nestedExecutionBody offset length = .ok (s.advance lenWide) := by
      rw [nestedExecutionBody_of_read ho hn, hzero, call_zero]
    exact State.conditional_ok hc hbody
  · exact State.conditional_error hc (nestedExecutionBody_of_offset_error he)
  · exact State.conditional_error hc (nestedExecutionBody_of_length_error ho he)

end Sys2Proof.Proofs
end

section
/-! PROOFS. Taking a fault: the record it writes (R180, R184). -/

namespace Sys2Proof.Proofs

open Sys2Proof Sys2Proof.Machine

/-- Settles O47: the cause selects the row of R180's table, and in each of the thirteen rows `raise` writes exactly the
record of R184. -/
theorem faultEntryWritesTheRecord : Obligations.FaultEntryWritesTheRecord := by
  intro s e
  cases e <;> rfl

end Sys2Proof.Proofs
end

section
/-! PROOFS. The Number Codec in both directions (R33 to R36) and the wrap of an integer to a word (R7). -/

namespace Sys2Proof.Proofs

open Sys2Proof Sys2Proof.Machine

/-! ### The encoder inside its domain -/

/-- R34 on the encoder's own bytes: they are determined by the integers they hold. -/
theorem enc_eq_some_iff {v : Int} {q : Quad} :
    enc v = some q ↔
      -65535 ≤ v ∧ v ≤ 65535 ∧ q.b0 = (if v < 0 then 8 else 0) ∧ q.b1.toNat = v.natAbs / 256 ∧ q.b2 = 0 ∧
        q.b3.toNat = v.natAbs % 256 := by
  refine ⟨enc_eq_some, fun ⟨hmin, hmax, h0, h1, h2, h3⟩ => ?_⟩
  obtain ⟨p, hp⟩ := enc_isSome hmin hmax
  obtain ⟨_, _, p0, p1, p2, p3⟩ := enc_eq_some hp
  have hpq : p = q := by
    cases p
    cases q
    exact congr (congr (congrArg₂ Quad.mk (p0.trans h0.symm) (byte_ext (p1.trans h1.symm))) (p2.trans h2.symm))
      (byte_ext (p3.trans h3.symm))
  rw [hp, hpq]

/-- R35: the encoder's bytes decode to the value, with `b0 = 8` as the sign of a negative one. -/
theorem dec_of_enc {v : Int} {q : Quad} (h : enc v = some q) : dec q = v := by
  obtain ⟨_, _, h0, h1, h2, h3⟩ := enc_eq_some h
  have hb2 : q.b2.toNat = 0 := by rw [h2]; rfl
  by_cases hv : v < 0
  · have hb0 : q.b0.toNat = 8 := by rw [h0, if_pos hv]; rfl
    rcases dec_cases q with ⟨_, _, hdec⟩ | ⟨hpos, _⟩ <;> omega
  · have hb0 : q.b0.toNat = 0 := by rw [h0, if_neg hv]; rfl
    rcases dec_cases q with ⟨hne, _, _⟩ | ⟨_, hdec⟩ <;> omega

/-- R36: the byte patterns the encoder uses. A negative zero is none of them. -/
theorem exists_enc_iff {q : Quad} :
    (∃ v, enc v = some q) ↔ q.b2 = 0 ∧ (q.b0 = 0 ∨ (q.b0 = 8 ∧ ¬(q.b1 = 0 ∧ q.b3 = 0))) := by
  have hb1 := byte_lt q.b1
  have hb3 := byte_lt q.b3
  constructor
  · rintro ⟨v, hv⟩
    obtain ⟨_, _, h0, h1, h2, h3⟩ := enc_eq_some hv
    refine ⟨h2, ?_⟩
    by_cases hneg : v < 0
    · refine .inr ⟨h0.trans (if_pos hneg), fun ⟨hz1, hz3⟩ => ?_⟩
      have hv1 : 0 = v.natAbs / 256 := by rw [← h1, hz1]; rfl
      have hv3 : 0 = v.natAbs % 256 := by rw [← h3, hz3]; rfl
      omega
    · exact .inl (h0.trans (if_neg hneg))
  · rintro ⟨h2, h0 | ⟨h0, hne⟩⟩
    · refine ⟨256 * q.b1.toNat + q.b3.toNat, enc_eq_some_iff.mpr ⟨by omega, by omega, ?_, by omega, h2, by omega⟩⟩
      rw [h0, if_neg (by omega)]
    · have hpos : 0 < 256 * q.b1.toNat + q.b3.toNat := by
        by_contra hzero
        exact hne ⟨byte_ext (by simp; omega), byte_ext (by simp; omega)⟩
      refine ⟨-(256 * q.b1.toNat + q.b3.toNat), enc_eq_some_iff.mpr ⟨by omega, by omega, ?_, by omega, h2, by omega⟩⟩
      rw [h0, if_pos (by omega)]

/-- A word is the number four bytes hold exactly when its value is what they decode to. -/
theorem eq_wrap32_dec_iff {v : Word} {q : Quad} : v = wrap32 (dec q) ↔ v.toInt = dec q := by
  refine ⟨fun h => h ▸ toInt_wrap32_dec q, fun h => ?_⟩
  rw [← h, wrap32_toInt]

theorem payload_decodeSlot_bounds (st : List Byte) (k : Nat) :
    -69615 ≤ (decodeSlot st k).payload ∧ (decodeSlot st k).payload ≤ 69622 := by
  have h := dec_bounds (payloadBytes st k)
  unfold decMin decMax at h
  rw [decodeSlot, ofTag_eq_ite]
  split_ifs
  case neg => exact (by decide : (-69615 : Int) ≤ 0 ∧ (0 : Int) ≤ 69622)
  all_goals exact h

/-- Settles O2: `dec_bounds` for what four bytes decode to, and the assembler's bytes for each value in the range. -/
theorem decodedNumbersFillTheirRange : Obligations.DecodedNumbersFillTheirRange := by
  have word : ∀ q, -69615 ≤ (wrap32 (dec q)).toInt ∧ (wrap32 (dec q)).toInt ≤ 69622 := fun q => by
    rw [toInt_wrap32_dec]
    exact dec_bounds q
  refine ⟨fun v => ⟨?_, fun ⟨hmin, hmax⟩ => ⟨encodePayload v, dec_encodePayload hmin hmax⟩⟩, fun s a => word _,
    fun s a => word _, payload_decodeSlot_bounds⟩
  rintro ⟨q, rfl⟩
  exact dec_bounds q

/-- Settles O3: the encoder fails exactly outside its domain, and inside it `enc_eq_some` gives the four bytes. -/
theorem encodeNumberFormula : Obligations.EncodeNumberFormula := by
  refine ⟨fun v hv => (enc_eq_none_iff v).mpr hv, fun v hmin hmax => ?_⟩
  obtain ⟨q, hq⟩ := enc_isSome hmin hmax
  obtain ⟨_, _, hbytes⟩ := enc_eq_some hq
  exact ⟨q, hq, hbytes⟩

/-- Settles O4: `dec_of_enc`; the second part is the one pattern of R35. -/
theorem encodeThenDecodeGivesTheValue : Obligations.EncodeThenDecodeGivesTheValue := by
  refine ⟨fun v hmin hmax => ?_, by decide⟩
  obtain ⟨q, hq⟩ := enc_isSome hmin hmax
  exact ⟨q, hq, dec_of_enc hq⟩

/-- Settles O5: `exists_enc_iff`; a pattern of the encoder is left as it is because it decodes to its value. -/
theorem encodedPatternsAreTheCanonicalOnes : Obligations.EncodedPatternsAreTheCanonicalOnes := by
  refine fun q => ⟨exists_enc_iff, fun h => ⟨dec q, h⟩, fun ⟨v, hv⟩ => ?_⟩
  rw [dec_of_enc hv, hv]

/-- Settles O6: congruence modulo 2^32 determines the signed value of a word, which lies in one period. -/
theorem wrapIsTheCongruentWord : Obligations.WrapIsTheCongruentWord := by
  intro n w
  have hw := word_toInt_bounds w
  rw [← BitVec.toInt_inj, wrap32, BitVec.toInt_ofInt, Int.bmod_def]
  omega

end Sys2Proof.Proofs
end

section
/-! PROOFS. The encoding of statements (R60 to R75): the decoder takes what the encoder writes apart again, slot by
slot, and reads nothing else. -/

namespace Sys2Proof.Proofs

open Sys2Proof Sys2Proof.Machine

/-! ### Slots and operands -/

/-- The first slot of the bytes behind a header is read from the five bytes of its operand. -/
theorem decodeSlot_encodeOperand {o : Operand} (h : o.wellFormed = true) (op cond : Byte) (bs : List Byte) :
    decodeSlot (op :: cond :: (encodeOperand o ++ bs)) 0 = o := by
  have hslot : decodeSlot (op :: cond :: (encodeOperand o ++ bs)) 0 =
      Operand.ofTag o.tag (dec (encodePayload o.payload)) := rfl
  have payload : ∀ {p}, payloadOk p = true → dec (encodePayload p) = p := fun hp => by
    simp only [payloadOk, Bool.and_eq_true, decide_eq_true_eq] at hp
    exact dec_encodePayload hp.1 hp.2
  rw [hslot]
  cases o with
  | register p => exact congrArg Operand.register (payload h)
  | registerValue p => exact congrArg Operand.registerValue (payload h)
  | pointer p => exact congrArg Operand.pointer (payload h)
  | constant p => exact congrArg Operand.constant (payload h)
  | invalid tag =>
    have htag : 4 ≤ tag.toNat := of_decide_eq_true h
    rw [Operand.tag, ofTag_eq_ite, if_neg (by omega), if_neg (by omega), if_neg (by omega), if_neg (by omega)]

/-- A later slot is the slot before it of the bytes without the first operand. -/
theorem decodeSlot_succ_encodeOperand (op cond : Byte) (o : Operand) (bs : List Byte) (k : Nat) :
    decodeSlot (op :: cond :: (encodeOperand o ++ bs)) (k + 1) = decodeSlot (op :: cond :: bs) k := by
  have shift : ∀ j, 2 ≤ j → (op :: cond :: (encodeOperand o ++ bs)).getD (j + 5 * (k + 1)) 0 =
      (op :: cond :: bs).getD (j + 5 * k) 0 := fun j hj => by
    obtain ⟨m, rfl⟩ := Nat.exists_eq_add_of_le' hj
    rw [show m + 2 + 5 * (k + 1) = m + 5 * k + 7 by omega, show m + 2 + 5 * k = m + 5 * k + 2 by omega]
    rfl
  unfold decodeSlot payloadBytes
  rw [shift 2 (by omega), shift 3 (by omega), shift 4 (by omega), shift 5 (by omega), shift 6 (by omega)]

/-- Operands encoded one after the other are the slots, in order. -/
theorem decodeSlot_flatMap_encodeOperand {os : List Operand} (h : ∀ o ∈ os, o.wellFormed = true) (op cond : Byte)
    (bs : List Byte) (k : Nat) (x : Operand) (hx : os[k]? = some x) :
    decodeSlot (op :: cond :: (os.flatMap encodeOperand ++ bs)) k = x := by
  induction os generalizing k with
  | nil => cases hx
  | cons o os ih =>
    rw [List.flatMap_cons, List.append_assoc]
    cases k with
    | zero =>
      rw [← Option.some.inj hx]
      exact decodeSlot_encodeOperand (h o List.mem_cons_self) op cond _
    | succ k =>
      rw [decodeSlot_succ_encodeOperand]
      exact ih (fun o ho => h o (List.mem_cons_of_mem _ ho)) k hx

/-- The operands of a statement read from bytes are its first slots (R64). -/
theorem operands_instr (op : Opcode) (c : Cond) (st : List Byte) :
    (op.instr c st).operands = (List.range (op.instr c st).operands.length).map (decodeSlot st) := by
  cases op <;> rfl

/-- A statement is determined by its opcode, its condition and the slots its opcode uses (R64). -/
theorem instr_of_slots {i : Instr} {st : List Byte}
    (h : ∀ k x, i.operands[k]? = some x → decodeSlot st k = x) : i.opcode.instr i.cond st = i := by
  cases i
  case halt => rfl
  case branch | readInput | writeOutput => exact congrArg _ (h 0 _ rfl)
  case move | compare | diskRead | diskWrite | nestedExecution =>
    exact congrArg₂ _ (h 0 _ rfl) (h 1 _ rfl)
  all_goals exact congr (congrArg₂ _ (h 0 _ rfl) (h 1 _ rfl)) (h 2 _ rfl)

/-- The slots a decoded statement uses are its operands. -/
theorem decodeSlot_eq_operand {op : Opcode} {c : Cond} {st : List Byte} {k : Nat} {x : Operand}
    (hx : (op.instr c st).operands[k]? = some x) : decodeSlot st k = x := by
  rw [operands_instr] at hx
  obtain ⟨_, hx⟩ := List.getElem?_eq_some_iff.mp hx
  rw [← hx, List.getElem_map, List.getElem_range]

/-! ### The decoder on a statement that passes its checks -/

/-- Past the checks of R92 to R94 the bytes are the opcode's statement over their slots. -/
theorem decode_of_legal {op cond : Byte} {rest : List Byte} {code : Opcode} {c : Cond}
    (hop : Opcode.ofByte op = some code) (hlen : code.length ≤ (op :: cond :: rest).length)
    (hcond : Cond.ofByte cond = some c) : decode (op :: cond :: rest) = .ok (code.instr c (op :: cond :: rest)) := by
  simp only [decode, hop, if_neg (not_lt.mpr hlen), hcond]

/-- Bytes that begin with an instruction's header, have its length and hold its operands in their slots decode to it. -/
theorem decode_of_slots {i : Instr} {rest : List Byte}
    (hlen : i.length ≤ (i.opcode.toByte :: i.cond.toByte :: rest).length)
    (hslots : ∀ k x, i.operands[k]? = some x →
      decodeSlot (i.opcode.toByte :: i.cond.toByte :: rest) k = x) :
    decode (i.opcode.toByte :: i.cond.toByte :: rest) = .ok i := by
  rw [decode_of_legal (Opcode.ofByte_toByte _) hlen (Cond.ofByte_toByte _), instr_of_slots hslots]

theorem spelled_toByte (op : Opcode) (c : Cond) (st : List Byte) :
    Claims.spelled op.toByte.toNat c (decodeSlot st 0) (decodeSlot st 1) (decodeSlot st 2) = some (op.instr c st) := by
  cases op <;> rfl

theorem conditionList_toByte (c : Cond) : [Cond.eq, .ne, .gt, .ngt, .lt, .nlt][c.toByte.toNat]? = some c := by
  cases c <;> rfl

theorem opcode_ofByte_of_le {b : Byte} (h : b.toNat ≤ 0x10) :
    ∃ op, Opcode.ofByte b = some op ∧ op.toByte = b ∧
      op.length = if b.toNat ≤ 0x09 ∨ (0x0D ≤ b.toNat ∧ b.toNat ≤ 0x0F) then 17 else 7 := by
  rcases Opcode.ofByte_cases b with ⟨hgt, _⟩ | ⟨op, hop, hb, _, hlen⟩
  · omega
  · exact ⟨op, hop, hb, hlen⟩

theorem cond_ofByte_of_le {b : Byte} (h : b.toNat ≤ 5) : ∃ c, Cond.ofByte b = some c ∧ c.toByte = b := by
  rcases Cond.ofByte_cases b with ⟨hgt, _⟩ | ⟨c, hc, hb, _⟩
  · omega
  · exact ⟨c, hc, hb⟩

/-! ### The statements -/

/-- Settles O7: the encoding holds the instruction's header and, slot by slot, its operands
(`decodeSlot_flatMap_encodeOperand`), and these make the instruction (`decode_of_slots`). -/
theorem decodeOfEncodeIsTheInstruction : Obligations.DecodeOfEncodeIsTheInstruction := by
  intro i rest hwf
  have hlen : (encode i ++ rest).length = i.length + rest.length := by rw [List.length_append, encode_length]
  have hbytes : encode i ++ rest = i.opcode.toByte :: i.cond.toByte ::
      (i.operands.flatMap encodeOperand ++
        (List.replicate (i.length - 2 - 5 * i.operands.length) 0 ++ rest)) := by
    simp only [encode, List.cons_append, List.append_assoc]
  rw [hbytes] at hlen ⊢
  exact decode_of_slots (by omega) (decodeSlot_flatMap_encodeOperand (List.all_eq_true.mp hwf) _ _ _)

/-- Settles O8: every operand of a decoded statement is a slot, and so well formed; the rest is `decode_ok` and O7. -/
theorem decodedInstructionsAreWellFormed : Obligations.DecodedInstructionsAreWellFormed := by
  intro bs i h
  obtain ⟨_, _, _, op, c, _, _, _, hlen, rfl⟩ := decode_ok h
  have hwf : (op.instr c bs).wellFormed = true := by
    rw [Instr.wellFormed, operands_instr, List.all_map, List.all_eq_true]
    exact fun k _ => decodeSlot_wellFormed bs k
  have hencode := decodeOfEncodeIsTheInstruction _ [] hwf
  rw [List.append_nil] at hencode
  exact ⟨hwf, by rwa [Opcode.instr_length], hencode⟩

/-- Settles O9: the decoder run on each word. -/
theorem specWordsDecode : Obligations.SpecWordsDecode := by
  refine ⟨?_, ?_, ?_, ?_, ?_, ?_, ?_⟩ <;> decide

/-- Settles O10: one rule of the decoder for each check, and `decode_of_legal` past them. -/
theorem decoderChecksInOrder : Obligations.DecoderChecksInOrder := by
  refine ⟨fun bs => decode_of_length_lt_two, fun op cond rest => ?_⟩
  refine ⟨fun hop => decode_of_illegal_opcode cond rest (opcode_ofByte_eq_none hop), ?_⟩
  by_cases hle : op.toNat ≤ 0x10
  · obtain ⟨code, hop, hbyte, hlength⟩ := opcode_ofByte_of_le hle
    rw [← hlength]
    refine ⟨fun _ hshort => decode_of_length_lt_opcode hop hshort, fun _ hfits hcond =>
      decode_of_illegal_condition hop hfits (cond_ofByte_eq_none hcond), fun _ hfits hcond => ?_⟩
    obtain ⟨c, hc, hcbyte⟩ := cond_ofByte_of_le hcond
    refine ⟨_, c, decode_of_legal hop hfits hc, ?_, ?_, ?_, ?_, Opcode.instr_length ..⟩
    · rw [← hcbyte, conditionList_toByte]
    · rw [← hbyte, spelled_toByte]
    · rw [Opcode.instr_opcode, hbyte]
    · rw [Opcode.instr_cond, hcbyte]
  · exact ⟨fun h => absurd h hle, fun h => absurd h hle, fun h => absurd h hle⟩

/-- Settles O11: the header and the used slots determine the statement (`decode_of_slots`), and each slot is read from
its own bytes. -/
theorem unusedSlotBytesAreIgnored : Obligations.UnusedSlotBytesAreIgnored := by
  intro bs bs' i h hlen hagree
  obtain ⟨opByte, condByte, rest, op, c, rfl, hop, hc, _, rfl⟩ := decode_ok h
  have hmin := (Instr.length_bounds (op.instr c (opByte :: condByte :: rest))).1
  match bs' with
  | [] | [_] => exact absurd (hmin.trans hlen) (by simp)
  | opByte' :: condByte' :: rest' =>
    have hop' : opByte' = opByte := hagree 0 (by omega)
    have hcond' : condByte' = condByte := hagree 1 (by omega)
    subst hop' hcond'
    rw [Opcode.instr_length] at hlen
    rw [decode_of_legal hop hlen hc]
    have hslots := instr_of_slots (i := op.instr c (opByte' :: condByte' :: rest))
      (st := opByte' :: condByte' :: rest') fun k x hx => by
        obtain ⟨hk, _⟩ := List.getElem?_eq_some_iff.mp hx
        rw [decodeSlot_congr fun j _ _ => hagree j (by omega), decodeSlot_eq_operand hx]
    rw [Opcode.instr_opcode, Opcode.instr_cond] at hslots
    rw [hslots]

end Sys2Proof.Proofs
end

section
/-! PROOFS. The step on bytes that decode (R90 to R98), and a machine that has stopped (R162, R185). -/

namespace Sys2Proof.Proofs

open Sys2Proof Sys2Proof.Machine

/-- Settles O12: `step_of_fetchWindow`, whose decoder's answer is the instruction. -/
theorem stepRunsTheDecodedInstruction : Obligations.StepRunsTheDecodedInstruction := by
  intro s bs i hrun hpc hbs hdec
  rw [step_of_fetchWindow hrun hpc hbs, hdec]
  rfl

/-- Settles O13: the fetched bytes begin with the encoding, so by O7 they decode to the instruction. -/
theorem stepRunsTheEncodedInstruction : Obligations.StepRunsTheEncodedInstruction := by
  intro s i hinv hrun hwf hroom hstream
  obtain ⟨hmin, hmax⟩ := i.length_bounds
  obtain ⟨bs, hbs, hlen, hget⟩ := State.fetchWindow_of_inv hinv
  have htake : bs.take i.length = encode i := List.ext_getElem? fun k => by
    by_cases hk : k < i.length
    · rw [List.getElem?_take_of_lt hk, ← hget k (by omega), hstream k hk]
    · rw [List.getElem?_eq_none (by rw [List.length_take]; omega),
        List.getElem?_eq_none (by rw [encode_length]; omega)]
  have hdec : decode bs = .ok i := by
    rw [← List.take_append_drop i.length bs, htake]
    exact decodeOfEncodeIsTheInstruction i _ hwf
  exact stepRunsTheDecodedInstruction s bs i hrun (by omega) hbs hdec

/-- Settles O18: by induction on the number of steps, each of which answers the same state (`step_stopped`). -/
theorem stoppedMachineStaysAsItIs : Obligations.StoppedMachineStaysAsItIs := by
  intro s n hstop
  induction n with
  | zero => rfl
  | succ n ih =>
    have hstep : Sys2Proof.core.step s = .next s := step_stopped hstop
    simp only [Host.Core.run, hstep]
    exact ih

end Sys2Proof.Proofs
end

section
/-! PROOFS. What an instruction can change: one inversion for the registers, the flag, RAM and the devices, and one for
the frames, the status and the parameters. The frame statements follow from the two. -/

namespace Sys2Proof.Proofs

open Sys2Proof Sys2Proof.Machine Sys2Proof.Claims

/-! ### The registers, the flag, RAM and the devices -/

/-- The two states hold the same data: they may differ in the frames, the status and the fault record. -/
structure SameData (s t : State) : Prop where
  regs : t.regs = s.regs
  flag : t.flag = s.flag
  ram : t.ram = s.ram
  run : t.run = s.run
  disk : t.disk = s.disk
  cin : t.cin = s.cin
  cout : t.cout = s.cout

/-- What an instruction can do to the data of a state: nothing, or one write of its own kind. -/
inductive Effect (s : State) : Instr → State → Prop
  /-- No write: a skipped statement, a fault, a jump, a call, a return, a wait for input. -/
  | unchanged {i : Instr} {t : State} : SameData s t → Effect s i t
  /-- A word stored at the destination. -/
  | stored {i : Instr} {o : Operand} {k : Nat} {l : Location} {v : Word} {u : State} {n : Nat} :
      destination i = some o → s.resolveDest k o = .ok l → s.store l v = .ok u → Effect s i (u.advance n)
  /-- A byte of input consumed and stored at the destination. -/
  | consumed {c : Cond} {d : Operand} {k : Nat} {l : Location} {b : Byte} {rest : List Byte} {v : Word} {u : State}
      {n : Nat} :
      s.resolveDest k d = .ok l → s.cin = b :: rest → ({ s with cin := rest } : State).store l v = .ok u →
      Effect s (.readInput c d) (u.advance n)
  /-- The flag written. -/
  | compared {c : Cond} {a b : Operand} {v : Word} {n : Nat} :
      Effect s (.compare c a b) ((s.setFlag v).advance n)
  /-- A number stored on the disk. -/
  | diskWritten {c : Cond} {x y : Operand} {a : Nat} {v : Word} {u : State} {n : Nat} :
      s.diskNumWrite a v = .ok u → Effect s (.diskWrite c x y) (u.advance n)
  /-- A byte put out. -/
  | emitted {c : Cond} {x : Operand} {b : Byte} {n : Nat} :
      Effect s (.writeOutput c x) ((s.consoleOut b).advance n)

theorem sameData_advance (s : State) (n : Nat) : SameData s (s.advance n) := ⟨rfl, rfl, rfl, rfl, rfl, rfl, rfl⟩

theorem sameData_raise (s : State) (e : Cause) : SameData s (s.raise e) := ⟨rfl, rfl, rfl, rfl, rfl, rfl, rfl⟩

theorem sameData_endFrame (s : State) (why : HaltReason) : SameData s (s.endFrame why) :=
  ⟨s.endFrame_regs why, s.endFrame_flag why, s.endFrame_ram why, s.endFrame_run why, s.endFrame_disk why,
    s.endFrame_cin why, s.endFrame_cout why⟩

/-- A completed call leaves the data as it was (R160). -/
theorem sameData_of_call {s t : State} {o n : Int} (h : s.call o n = .ok t) : SameData s t := by
  rcases State.call_ok h with ⟨_, rfl⟩ | ⟨_, _, _, _, rfl⟩
  · exact sameData_advance s _
  · exact ⟨rfl, rfl, rfl, rfl, rfl, rfl, rfl⟩

theorem effect_of_binaryBody {i : Instr} {s t : State} {op : Word → Word → Except Cause Word} {a b d : Operand}
    (hi : destination i = some d) (h : s.binaryBody op a b d = .ok t) : Effect s i t := by
  obtain ⟨_, _, _, _, _, _, _, _, hl, hu, rfl⟩ := State.binaryBody_ok h
  exact .stored hi hl hu

/-- Everything a completed body can do to the data. -/
theorem effect_of_bodyOf {i : Instr} {s t : State} (h : bodyOf i s = .ok t) : Effect s i t := by
  cases i with
  | move =>
    obtain ⟨_, _, _, _, hl, hu, rfl⟩ := State.moveBody_ok h
    exact .stored rfl hl hu
  | add | subtract | multiply | divide | modulo | bitwiseAnd | bitwiseOr | bitwiseXor =>
    exact effect_of_binaryBody rfl h
  | compare =>
    obtain ⟨_, _, _, _, rfl⟩ := State.compareBody_ok h
    exact .compared
  | branch =>
    obtain ⟨_, _, _, _, rfl⟩ := State.branchBody_ok h
    exact .unchanged ⟨rfl, rfl, rfl, rfl, rfl, rfl, rfl⟩
  | readInput =>
    obtain ⟨_, hl, ⟨_, rfl⟩ | ⟨_, _, _, hcin, hu, rfl⟩⟩ := State.readInputBody_ok h
    · exact .unchanged ⟨rfl, rfl, rfl, rfl, rfl, rfl, rfl⟩
    · exact .consumed hl hcin hu
  | writeOutput =>
    obtain ⟨_, _, rfl⟩ := State.writeOutputBody_ok h
    exact .emitted
  | diskRead =>
    obtain ⟨_, _, _, _, _, _, hl, hu, rfl⟩ := State.diskReadBody_ok h
    exact .stored rfl hl hu
  | diskWrite =>
    obtain ⟨_, _, _, _, _, _, _, hu, rfl⟩ := State.diskWriteBody_ok h
    exact .diskWritten hu
  | nestedExecution =>
    obtain ⟨_, _, _, _, hcall⟩ := State.nestedExecutionBody_ok h
    exact .unchanged (sameData_of_call hcall)
  | halt =>
    cases h
    exact .unchanged (sameData_endFrame s _)

/-- Everything an instruction can do to the data. -/
theorem effect_of_exec {i : Instr} {s t : State} (h : exec i s = .next t) : Effect s i t := by
  rcases exec_cases h with rfl | h | ⟨e, rfl⟩
  · exact .unchanged (sameData_advance s _)
  · exact effect_of_bodyOf h
  · exact .unchanged (sameData_raise s e)

/-- What a store at a destination changes: one register, or four bytes inside RAM. -/
theorem store_resolveDest_cases {s s' u : State} {k : Nat} {o : Operand} {l : Location} {v : Word}
    (hl : s.resolveDest k o = .ok l) (hu : s'.store l v = .ok u) :
    (∃ p : Int, o = .register p ∧ 0 ≤ p ∧ u = s'.setReg p.toNat v) ∨
      ∃ a q, s.resolve o = .ok (.ram a) ∧ a + 4 ≤ s.ramSize ∧ u = s'.setRamQuad a q := by
  obtain ⟨hres, hconst⟩ := State.resolveDest_ok hl
  rcases State.store_ok hu hconst with ⟨i, rfl, rfl⟩ | ⟨a, q, rfl, _, rfl⟩
  · rcases State.resolve_ok hres with ⟨p, ho, hp, _, hi⟩ | ⟨_, _, _, _, _, _, h⟩ | ⟨_, _, _, _, h⟩ | ⟨_, _, h⟩
    · cases hi
      exact .inl ⟨p, ho, hp, rfl⟩
    · cases h
    · cases h
    · cases h
  · exact .inr ⟨a, q, hres, State.locationOk_of_resolve hres, rfl⟩

/-! ### The statements on the data -/

/-- Settles O49: the one effect that writes the flag is that of compare. -/
theorem onlyCompareWritesTheFlag : Obligations.OnlyCompareWritesTheFlag := by
  intro i s t h hne
  cases effect_of_exec h with
  | unchanged hsame => exact absurd hsame.flag hne
  | stored _ hl hu | consumed hl _ hu =>
    rcases store_resolveDest_cases hl hu with ⟨_, _, _, rfl⟩ | ⟨_, _, _, _, rfl⟩ <;> exact absurd rfl hne
  | compared => exact ⟨_, _, _, rfl⟩
  | diskWritten hu =>
    obtain ⟨_, _, rfl⟩ := State.diskNumWrite_ok hu
    exact absurd rfl hne
  | emitted => exact absurd rfl hne

/-- A register that differs after a store at a destination is the one the operand names. -/
theorem register_of_store {s s' u : State} {k j : Nat} {o : Operand} {l : Location} {v : Word}
    (hl : s.resolveDest k o = .ok l) (hu : s'.store l v = .ok u) (hs' : s'.regs = s.regs)
    (hne : u.reg j ≠ s.reg j) : ∃ p : Int, o = .register p ∧ p = j := by
  have frame : s'.reg j = s.reg j := by rw [State.reg, State.reg, hs']
  rcases store_resolveDest_cases hl hu with ⟨p, ho, hp, rfl⟩ | ⟨_, _, _, _, rfl⟩
  · refine ⟨p, ho, ?_⟩
    by_contra hpj
    exact hne ((State.reg_setReg_other s' _ j v (by omega)).trans frame)
  · exact absurd frame hne

/-- A byte of RAM that differs after a store at a destination is one of the four the operand resolves to. -/
theorem ramByte_of_store {s s' u : State} {k x : Nat} {o : Operand} {l : Location} {v : Word}
    (hl : s.resolveDest k o = .ok l) (hu : s'.store l v = .ok u) (hram : s'.ram = s.ram) (hrun : s'.run = s.run)
    (hne : u.ramByte x ≠ s.ramByte x) : ∃ a, s.resolve o = .ok (.ram a) ∧ a ≤ x ∧ x < a + 4 := by
  have frame : s'.ramByte x = s.ramByte x := State.ramByte_congr hram hrun x
  rcases store_resolveDest_cases hl hu with ⟨_, _, _, rfl⟩ | ⟨a, q, hres, _, rfl⟩
  · exact absurd frame hne
  · refine ⟨a, hres, ?_⟩
    by_contra hx
    exact hne ((s'.ramByte_setRamQuad_outside a x q (by omega)).trans frame)

/-- Settles O50: the effects that write a register are those with a store at the destination (`register_of_store`). -/
theorem onlyRegisterDestinationsChangeRegisters : Obligations.OnlyRegisterDestinationsChangeRegisters := by
  intro i s t j h hne
  cases effect_of_exec h with
  | unchanged hsame => exact absurd (by rw [State.reg, State.reg, hsame.regs]) hne
  | stored hi hl hu =>
    obtain ⟨p, rfl, hp⟩ := register_of_store hl hu rfl hne
    exact ⟨p, hi, hp⟩
  | consumed hl _ hu =>
    obtain ⟨p, rfl, hp⟩ := register_of_store hl hu rfl hne
    exact ⟨p, rfl, hp⟩
  | compared => exact absurd rfl hne
  | diskWritten hu =>
    obtain ⟨_, _, rfl⟩ := State.diskNumWrite_ok hu
    exact absurd rfl hne
  | emitted => exact absurd rfl hne

/-- Settles O51: the effects that write RAM are those with a store at the destination (`ramByte_of_store`). -/
theorem onlyRamDestinationsChangeRam : Obligations.OnlyRamDestinationsChangeRam := by
  intro i s t x h hne
  cases effect_of_exec h with
  | unchanged hsame => exact absurd (State.ramByte_congr hsame.ram hsame.run x) hne
  | stored hi hl hu =>
    obtain ⟨a, ha⟩ := ramByte_of_store hl hu rfl rfl hne
    exact ⟨_, a, hi, ha⟩
  | consumed hl _ hu =>
    obtain ⟨a, ha⟩ := ramByte_of_store hl hu rfl rfl hne
    exact ⟨_, a, rfl, ha⟩
  | compared => exact absurd rfl hne
  | diskWritten hu =>
    obtain ⟨_, _, rfl⟩ := State.diskNumWrite_ok hu
    exact absurd rfl hne
  | emitted => exact absurd rfl hne

/-- Settles O52: each device is written by the effect of its own instruction alone. -/
theorem devicesChangeOnlyByTheirInstructions : Obligations.DevicesChangeOnlyByTheirInstructions := by
  intro i s t h
  have same : ∀ {P Q R : Prop} {u : State}, u.disk = s.disk → u.cin = s.cin → u.cout = s.cout →
      (u.disk ≠ s.disk → P) ∧ u.disk.length = s.disk.length ∧ (u.cin ≠ s.cin → Q) ∧ (u.cout ≠ s.cout → R) :=
    fun hdisk hcin hcout => ⟨fun hne => absurd hdisk hne, by rw [hdisk], fun hne => absurd hcin hne,
      fun hne => absurd hcout hne⟩
  cases effect_of_exec h with
  | unchanged hsame => exact same hsame.disk hsame.cin hsame.cout
  | stored _ hl hu =>
    rcases store_resolveDest_cases hl hu with ⟨_, _, _, rfl⟩ | ⟨_, _, _, _, rfl⟩ <;> exact same rfl rfl rfl
  | @consumed _ _ _ _ b _ _ _ _ hl hcin hu =>
    rcases store_resolveDest_cases hl hu with ⟨_, _, _, rfl⟩ | ⟨_, _, _, _, rfl⟩ <;>
      exact ⟨fun hne => absurd rfl hne, rfl, fun _ => ⟨⟨_, _, rfl⟩, b, hcin⟩, fun hne => absurd rfl hne⟩
  | compared => exact same rfl rfl rfl
  | diskWritten hu =>
    obtain ⟨hu, hlen⟩ := State.diskNumWrite_eq hu
    exact ⟨fun _ => ⟨_, _, _, rfl⟩, hlen, fun hne => absurd (by rw [hu]; rfl) hne,
      fun hne => absurd (by rw [hu]; rfl) hne⟩
  | @emitted _ _ b _ =>
    exact ⟨fun hne => absurd rfl hne, rfl, fun hne => absurd rfl hne, fun _ => ⟨⟨_, _, rfl⟩, b, rfl⟩⟩

end Sys2Proof.Proofs
end

section
/-! PROOFS. The frames, the status and the parameters along a step (R17, R90 to R99, R184), and the invariant that every
step keeps. -/

namespace Sys2Proof.Proofs

open Sys2Proof Sys2Proof.Machine

/-! ### One step -/

/-- What a step of a running machine can do to its frames, its status and its fault record. -/
inductive Control (s : State) : State → Prop
  /-- The `pc` moves inside the stream or to its end, and nothing else of them changes. -/
  | moved {u : State} {x : Nat} : s.SameFrame u → x ≤ s.len → Control s (u.setPc x)
  /-- A fault is taken. -/
  | raised (e : Cause) : Control s (s.raise e)
  /-- A frame over a non-empty range of RAM is pushed above the caller's next statement. -/
  | pushed {o n : Nat} : 0 < n → o + n ≤ s.ramSize → s.depth + 1 ≤ s.maxDepth → s.pc + lenWide ≤ s.len →
      Control s ((s.advance lenWide).pushFrame o n)
  /-- The current frame ends. -/
  | ended (why : HaltReason) : Control s (s.endFrame why)

/-- An instruction that lies in the stream leaves the `pc` in it. -/
theorem control_of_exec {i : Instr} {s t : State} (hroom : s.pc + i.length ≤ s.len) (h : exec i s = .next t) :
    Control s t := by
  have advanced : ∀ {u : State} {n : Nat}, s.SameFrame u → n ≤ i.length → Control s (u.advance n) := by
    intro u n hu hn
    have hpc : u.pc = s.pc := congrArg Frame.pc hu.current
    exact .moved hu (by omega)
  rcases exec_cases h with rfl | h | ⟨e, rfl⟩
  · exact advanced s.sameFrame_refl (le_refl _)
  · rcases bodyOf_cases h with ⟨u, n, rfl, hn, hu⟩ | ⟨x, hx, rfl⟩ | ⟨o, n, hn, hram, hdepth, hlen, rfl⟩ | rfl
    · exact advanced hu hn
    · exact .moved s.sameFrame_refl hx
    · exact .pushed hn hram hdepth (hlen ▸ hroom)
    · exact .ended _
  · exact .raised e

/-- A step does nothing to a stopped machine, and `Control` to a running one. -/
theorem control_of_step {s t : State} (h : step s = .next t) :
    (s.status ≠ .running ∧ t = s) ∨ (s.status = .running ∧ Control s t) := by
  rcases step_cases h with hstop | ⟨hrun, _, rfl⟩ | ⟨hrun, _, i, hlen, hexec⟩ | ⟨hrun, e, rfl⟩
  · exact .inl hstop
  · exact .inr ⟨hrun, .ended _⟩
  · have hmin := i.length_bounds.1
    exact .inr ⟨hrun, control_of_exec (by omega) hexec⟩
  · exact .inr ⟨hrun, .raised e⟩

/-! ### What `Control` says of each part of the state -/

theorem params_of_control {s t : State} (h : Control s t) :
    t.bios = s.bios ∧ t.config = s.config ∧ t.disk.length = s.disk.length ∧ t.run = s.run := by
  cases h with
  | moved hu _ =>
    refine ⟨hu.bios, ?_, hu.diskSize, hu.run⟩
    simp only [State.config, State.nregs, State.setPc_regs, State.setPc_ramSize, State.setPc_maxDepth, hu.nregs,
      hu.ramSize, hu.maxDepth]
  | raised e => exact ⟨rfl, rfl, rfl, rfl⟩
  | pushed => exact ⟨rfl, rfl, rfl, rfl⟩
  | ended why =>
    rcases s.endFrame_cases why with ⟨_, ht⟩ | ⟨_, _, _, ht⟩ <;> rw [ht] <;> exact ⟨rfl, rfl, rfl, rfl⟩

theorem frames_of_control {s t : State} (h : Control s t) :
    (t.callers = s.callers ∧ t.current = { s.current with pc := t.pc }) ∨
      (∃ n, t.callers = { s.current with pc := s.pc + n } :: s.callers ∧ t.current.space = .ram ∧ t.pc = 0) ∨
      s.callers = t.current :: t.callers := by
  cases h with
  | @moved _ x hu _ => exact .inl ⟨hu.callers, congrArg (fun f : Frame => { f with pc := x }) hu.current⟩
  | raised e => exact .inl ⟨rfl, rfl⟩
  | pushed => exact .inr (.inl ⟨lenWide, rfl, rfl, rfl⟩)
  | ended why =>
    rcases s.endFrame_cases why with ⟨_, ht⟩ | ⟨_, _, hcallers, ht⟩
    · rw [ht]
      exact .inl ⟨rfl, rfl⟩
    · rw [ht]
      exact .inr (.inr hcallers)

/-- The status and the fault record after a step of a running machine: only a fault writes the record, and only at
depth 0 the machine halts. -/
theorem status_of_control {s t : State} (hrun : s.status = .running) (h : Control s t) :
    (t.status = .running ∧ t.fault = s.fault) ∨
      (∃ why, t.status = .halted why ∧ t.callers = [] ∧ t.fault = s.fault) ∨ ∃ e, t = s.raise e := by
  cases h with
  | moved hu _ => exact .inl ⟨hu.status.trans hrun, hu.fault⟩
  | raised e => exact .inr (.inr ⟨e, rfl⟩)
  | pushed => exact .inl ⟨hrun, rfl⟩
  | ended why =>
    rcases s.endFrame_cases why with ⟨hcallers, ht⟩ | ⟨_, _, _, ht⟩
    · rw [ht]
      exact .inr (.inl ⟨why, rfl, hcallers, rfl⟩)
    · rw [ht]
      exact .inl ⟨hrun, rfl⟩

/-- R17: the frame stack stays proper. -/
theorem framesOk_of_control {s t : State} (hok : framesOk s.bios.length s.ramSize (s.current :: s.callers) = true)
    (h : Control s t) : framesOk s.bios.length s.ramSize (t.current :: t.callers) = true := by
  cases h with
  | moved hu hx =>
    rw [State.setPc_current, State.setPc_callers, hu.current, hu.callers]
    exact framesOk_setPc hok hx
  | raised e => exact hok
  | pushed hn hram _ hpc =>
    refine framesOk_push ?_ (framesOk_setPc hok hpc)
    simp [Frame.nestedOk, Frame.pcOk, Nat.succ_le_of_lt hn, hram]
  | ended why =>
    rcases s.endFrame_cases why with ⟨_, ht⟩ | ⟨_, _, hcallers, ht⟩
    · rw [ht]
      exact hok
    · rw [ht]
      rcases framesOk_cons hok with ⟨_, hnil⟩ | ⟨_, hrest⟩
      · rw [hnil] at hcallers
        cases hcallers
      · rwa [hcallers] at hrest

theorem depth_of_control {s t : State} (hdepth : s.depth ≤ s.maxDepth) (h : Control s t) : t.depth ≤ s.maxDepth := by
  cases h with
  | moved hu _ =>
    rw [State.depth, State.setPc_callers, hu.callers]
    exact hdepth
  | raised e => exact hdepth
  | pushed _ _ hpush _ => exact hpush
  | ended why =>
    rcases s.endFrame_cases why with ⟨_, ht⟩ | ⟨_, _, hcallers, ht⟩
    · rw [ht]
      exact hdepth
    · rw [ht]
      rw [State.depth, hcallers] at hdepth
      exact (Nat.le_succ _).trans hdepth

/-! ### RAM along a step -/

/-- RAM in its canonical form and inside its size (R20). -/
def RamOk (s : State) : Prop := s.ram.wf = true ∧ ∀ cell ∈ s.ram, cell.1 < s.ramSize

theorem ramOk_congr {s t : State} (h : RamOk s) (hram : t.ram = s.ram) (hsize : t.ramSize = s.ramSize) : RamOk t := by
  rwa [RamOk, hram, hsize]

theorem ramOk_of_store {s s' u : State} {k : Nat} {o : Operand} {l : Location} {v : Word} (h : RamOk s)
    (hl : s.resolveDest k o = .ok l) (hu : s'.store l v = .ok u) (hram : s'.ram = s.ram)
    (hsize : s'.ramSize = s.ramSize) : RamOk u := by
  obtain ⟨hwf, hbound⟩ := ramOk_congr h hram hsize
  rcases store_resolveDest_cases hl hu with ⟨_, _, _, rfl⟩ | ⟨a, q, _, ha, rfl⟩
  · exact ⟨hwf, hbound⟩
  · exact ⟨s'.setRamQuad_wf a q hwf, s'.setRamQuad_bounds a _ q hbound (hsize ▸ ha)⟩

theorem ramOk_of_exec {i : Instr} {s t : State} (hok : RamOk s) (hsize : t.ramSize = s.ramSize)
    (h : exec i s = .next t) : RamOk t := by
  cases effect_of_exec h with
  | unchanged hsame => exact ramOk_congr hok hsame.ram hsize
  | stored _ hl hu => exact ramOk_congr (ramOk_of_store hok hl hu rfl rfl) rfl rfl
  | consumed hl _ hu => exact ramOk_congr (ramOk_of_store hok hl hu rfl rfl) rfl rfl
  | compared => exact hok
  | diskWritten hu =>
    obtain ⟨_, _, rfl⟩ := State.diskNumWrite_ok hu
    exact hok
  | emitted => exact hok

theorem ramOk_of_step {s t : State} (hok : RamOk s) (hsize : t.ramSize = s.ramSize) (h : step s = .next t) :
    RamOk t := by
  rcases step_cases h with ⟨_, rfl⟩ | ⟨_, _, rfl⟩ | ⟨_, _, i, _, hexec⟩ | ⟨_, e, rfl⟩
  · exact hok
  · exact ramOk_congr hok (s.endFrame_ram _) hsize
  · exact ramOk_of_exec hok hsize hexec
  · exact hok

/-! ### The fault record -/

theorem fault_eq_none_of_running {s : State} (hok : s.faultOk = true) (hrun : s.status = .running) :
    s.fault = none := by
  cases hf : s.fault with
  | none => rfl
  | some r => simp [State.faultOk, hf, hrun] at hok

theorem faultOk_of_fault_eq_none {s : State} (hnone : s.fault = none) (h : s.status ≠ .faulted) :
    s.faultOk = true := by
  simpa [State.faultOk, hnone] using h

/-- R184: the record a fault writes names the frame it was taken in. -/
theorem faultOk_raise (s : State) (e : Cause) : (s.raise e).faultOk = true := by
  have hcode := e.code_bounds
  simp [State.faultOk, State.recordOk, State.depth, hcode]

/-! ### The statements on a step -/

/-- Settles O48: of what a running machine can do only taking a fault leads to status `Faulted`. -/
theorem faultsArePrecise : Obligations.FaultsArePrecise := by
  intro s t hrun h hfaulted
  rcases control_of_step h with ⟨hstop, _⟩ | ⟨_, hc⟩
  · exact absurd hrun hstop
  · rcases status_of_control hrun hc with ⟨ht, _⟩ | ⟨_, ht, _⟩ | ⟨e, rfl⟩
    · rw [ht] at hfaulted
      cases hfaulted
    · rw [ht] at hfaulted
      cases hfaulted
    · exact ⟨_, rfl, rfl, rfl, rfl, rfl, e.code_bounds⟩

/-- Settles O53: `frames_of_control`; a stopped machine keeps its frames. -/
theorem framesArePushedAndPopped : Obligations.FramesArePushedAndPopped := by
  intro s t h
  rcases control_of_step h with ⟨_, rfl⟩ | ⟨_, hc⟩
  · exact .inl ⟨rfl, rfl⟩
  · exact frames_of_control hc

/-- Settles O54: `params_of_control`; a stopped machine stays as it is. -/
theorem parametersNeverChange : Obligations.ParametersNeverChange := by
  intro s t h
  rcases control_of_step h with ⟨_, rfl⟩ | ⟨_, hc⟩
  · exact ⟨rfl, rfl, rfl, rfl⟩
  · exact params_of_control hc

/-- Settles O58: each part of the invariant along the step. The parameters stay, RAM follows the data
(`ramOk_of_step`), and the frames, the depth, the status and the fault record follow `Control`. -/
theorem stepKeepsTheMachineWellFormed : Obligations.StepKeepsTheMachineWellFormed := by
  intro s t hinv h
  rcases control_of_step h with ⟨_, rfl⟩ | ⟨hrun, hc⟩
  · exact hinv
  · obtain ⟨hcfg, hlaunch, hwf, hbound, hframes, hdepth, hfault, _⟩ := s.inv_iff.mp hinv
    obtain ⟨hbios, hconfig, hdisk, _⟩ := params_of_control hc
    have hsize : t.ramSize = s.ramSize := congrArg Config.ramSize hconfig
    have hmax : t.maxDepth = s.maxDepth := congrArg Config.maxDepth hconfig
    have hnone := fault_eq_none_of_running hfault hrun
    obtain ⟨hwf', hbound'⟩ := ramOk_of_step ⟨hwf, hbound⟩ hsize h
    have hstop : t.faultOk = true ∧ ∀ r, t.status = .halted r → t.callers = [] := by
      rcases status_of_control hrun hc with ⟨ht, hf⟩ | ⟨_, ht, hcallers, hf⟩ | ⟨e, rfl⟩
      · exact ⟨faultOk_of_fault_eq_none (hf.trans hnone) (by simp [ht]), by simp [ht]⟩
      · exact ⟨faultOk_of_fault_eq_none (hf.trans hnone) (by simp [ht]), fun _ _ => hcallers⟩
      · exact ⟨faultOk_raise s e, by simp⟩
    refine t.inv_iff.mpr ⟨by rwa [hconfig], ?_, hwf', hbound', ?_, ?_, hstop⟩
    · rwa [launchOk, hbios, hdisk]
    · rw [hbios, hsize]
      exact framesOk_of_control hframes hc
    · rw [hmax]
      exact depth_of_control hdepth hc

/-- Settles O59: in a well-formed machine the fetch succeeds (`State.fetchWindow_of_inv`), so the step raises what the
decoder found or runs an instruction, which always answers. -/
theorem wellFormedMachineNeverStops : Obligations.WellFormedMachineNeverStops := by
  intro s hinv
  by_cases hrun : s.status = .running
  · by_cases hpc : s.pc = s.len
    · exact ⟨_, step_exhausted hrun hpc⟩
    · obtain ⟨bs, hbs, _⟩ := State.fetchWindow_of_inv hinv
      cases hdec : decode bs with
      | ok i =>
        rw [stepRunsTheDecodedInstruction s bs i hrun hpc hbs hdec]
        exact exec_next i s
      | error e => exact ⟨_, step_of_decode_error hrun hpc hbs hdec⟩
  · exact ⟨s, step_stopped hrun⟩

/-! ### Reset and the runs from it -/

theorem topLevel_ok (n : Nat) : (Frame.topLevel n).topLevelOk n = true := by
  simp [Frame.topLevelOk, Frame.topLevel, Frame.pcOk]

theorem config_launch (cfg : Config) (run : Nat) (bios disk cin : List Byte) :
    (State.launch cfg run bios disk cin).config = cfg := by
  simp only [State.config, State.nregs, State.launch_regs, List.length_replicate, State.launch_ramSize,
    State.launch_maxDepth]

/-- R28: right after reset the machine is well formed. -/
theorem inv_launch {cfg : Config} {bios disk : List Byte} (run : Nat) (cin : List Byte) (hcfg : cfg.wf = true)
    (hlaunch : launchOk bios disk = true) : (State.launch cfg run bios disk cin).Inv = true := by
  refine (State.inv_iff _).mpr ⟨?_, hlaunch, rfl, ?_, topLevel_ok _, Nat.zero_le _, rfl, fun _ _ => rfl⟩
  · rwa [config_launch]
  · intro cell hcell
    cases hcell

/-- Settles O56: the fields of the launched state; a register that does not exist reads 0 as well. -/
theorem resetValues : Obligations.ResetValues := by
  intro cfg run bios disk cin s
  refine ⟨fun i => ?_, List.length_replicate, rfl, fun a => rfl, rfl, rfl, rfl, rfl, rfl, rfl, rfl, rfl⟩
  rw [State.reg, State.launch_regs, List.getD_eq_getElem?_getD, List.getElem?_replicate]
  split <;> rfl

/-- Settles O57: `inv_launch`, and for `State.reset` that its default configuration and empty launch are in range. -/
theorem resetIsWellFormed : Obligations.ResetIsWellFormed :=
  ⟨inv_launch 0 [] (by decide) (by decide), fun _ run _ _ cin hcfg hlaunch => inv_launch run cin hcfg hlaunch⟩

/-- Settles O60: the invariant holds at launch and after a reset (`inv_launch`), a step keeps it (O58), and it does not
speak of the input; a well-formed machine can be stepped (O59). -/
theorem reachableMachinesAreWellFormed : Obligations.ReachableMachinesAreWellFormed := by
  intro s h
  have hinv : s.Inv = true := by
    induction h with
    | launch cfg run bios disk cin hcfg hlaunch => exact inv_launch run cin hcfg hlaunch
    | step _ hstep ih => exact stepKeepsTheMachineWellFormed _ _ ih hstep
    | input bytes _ ih => exact ih
    | reset bios disk cin _ hlaunch ih => exact inv_launch _ cin ((State.inv_iff _).mp ih).1 hlaunch
  exact ⟨hinv, wellFormedMachineNeverStops s hinv⟩

/-! ### Stores and fetches -/

/-- Settles O55: in a RAM frame a fetch reads RAM, so it sees the four stored bytes and no other change. -/
theorem storedBytesAreFetched : Obligations.StoredBytesAreFetched := by
  intro s a i q hspace hroom
  have fetch : ∀ {t : State}, t.current = s.current → t.ramSize = s.ramSize →
      t.streamByte i = if s.current.base + i < s.ramSize then some (t.ramByte (s.current.base + i)) else none := by
    intro t hcurrent hsize
    rw [State.streamByte, hcurrent, hspace, State.spaceByte, hsize]
  rw [fetch rfl rfl, fetch (t := s.setRamQuad a q) rfl rfl, State.ramByte_setRamQuad]
  refine ⟨fun h => ?_, fun h => ?_, fun h => ?_, fun h => ?_, fun h => ?_⟩
  · rw [if_pos (by omega), if_neg (by omega), if_neg (by omega), if_neg (by omega), if_pos (by omega)]
  · rw [if_pos (by omega), if_neg (by omega), if_neg (by omega), if_pos (by omega)]
  · rw [if_pos (by omega), if_neg (by omega), if_pos (by omega)]
  · rw [if_pos (by omega), if_pos (by omega)]
  · rw [if_neg (by omega : ¬s.current.base + i = a + 3), if_neg (by omega : ¬s.current.base + i = a + 2),
      if_neg (by omega : ¬s.current.base + i = a + 1), if_neg (by omega : ¬s.current.base + i = a)]

end Sys2Proof.Proofs
end

section
/-! PROOFS. Operands read, and destinations written (R101 to R106): what an operand's value and its fault are, what a
store changes, and what is read back. -/

namespace Sys2Proof.Proofs

open Sys2Proof Sys2Proof.Machine Sys2Proof.Claims

/-! ### Operands read -/

/-- A check that passes on to `x` completes exactly when it holds and `x` completes. -/
theorem ite_error_eq_ok_iff {ε α : Type} {c : Prop} [Decidable c] {e : ε} {x : Except ε α} {a : α} :
    (if c then .error e else x) = .ok a ↔ ¬c ∧ x = .ok a := by
  split <;> simp [*]

/-- A check that passes on to `x` raises its own error where it fails, else what `x` raises. -/
theorem ite_error_eq_error_iff {ε α : Type} {c : Prop} [Decidable c] {e e' : ε} {x : Except ε α} :
    (if c then .error e else x) = .error e' ↔ (c ∧ e' = e) ∨ (¬c ∧ x = .error e') := by
  split <;> simp [*, eq_comm]

section Read

variable {s : State} {o : Operand} {p : Int} {v : Word} {e : Cause}

theorem readOperand_error_iff : s.readOperand o = .error e ↔ s.resolve o = .error e :=
  except_bind_error.trans (or_iff_left fun ⟨_, _, h⟩ => nomatch h)

theorem readOperand_register_ok_iff :
    s.readOperand (.register p) = .ok v ↔ 0 ≤ p ∧ p < s.nregs ∧ v = s.reg p.toNat := by
  rw [State.readOperand_ok_iff]
  simp only [resolve_register, ite_error_eq_ok_iff, Except.ok.injEq, not_or, not_lt, ge_iff_le, not_le]
  exact ⟨fun ⟨_, ⟨⟨h0, h1⟩, hl⟩, hv⟩ => ⟨h0, h1, by rw [hv, ← hl]; rfl⟩, fun ⟨h0, h1, hv⟩ => ⟨_, ⟨⟨h0, h1⟩, rfl⟩, hv⟩⟩

theorem readOperand_pointer_ok_iff :
    s.readOperand (.pointer p) = .ok v ↔ 0 ≤ p ∧ p + 4 ≤ s.ramSize ∧ v.toInt = dec (s.ramQuad p.toNat) := by
  rw [State.readOperand_ok_iff, ← eq_wrap32_dec_iff]
  simp only [resolve_pointer, ite_error_eq_ok_iff, Except.ok.injEq, not_or, not_lt, gt_iff_lt]
  exact ⟨fun ⟨_, ⟨⟨h0, h1⟩, hl⟩, hv⟩ => ⟨h0, h1, by rw [hv, ← hl]; rfl⟩, fun ⟨h0, h1, hv⟩ => ⟨_, ⟨⟨h0, h1⟩, rfl⟩, hv⟩⟩

/-- A register in range reads as a pointer to the address it holds. -/
theorem readOperand_registerValue_ok_iff :
    s.readOperand (.registerValue p) = .ok v ↔
      0 ≤ p ∧ p < s.nregs ∧ s.readOperand (.pointer (s.reg p.toNat).toInt) = .ok v := by
  simp only [State.readOperand_ok_iff, resolve_registerValue, ite_error_eq_ok_iff, not_or, not_lt, ge_iff_le, not_le]
  exact ⟨fun ⟨l, ⟨⟨h0, h1⟩, hl⟩, hv⟩ => ⟨h0, h1, l, hl, hv⟩, fun ⟨h0, h1, l, hl, hv⟩ => ⟨l, ⟨⟨h0, h1⟩, hl⟩, hv⟩⟩

theorem readOperand_constant_ok_iff : s.readOperand (.constant p) = .ok v ↔ v = wrap32 p := by
  rw [State.readOperand_ok_iff, resolve_constant]
  exact ⟨fun ⟨_, hl, hv⟩ => by cases hl; exact hv, fun hv => ⟨_, rfl, hv⟩⟩

theorem readOperand_register_error_iff :
    s.readOperand (.register p) = .error e ↔ (p < 0 ∨ p ≥ s.nregs) ∧ e = .badRegister p := by
  rw [readOperand_error_iff, resolve_register, ite_error_eq_error_iff]
  simp

theorem readOperand_pointer_error_iff :
    s.readOperand (.pointer p) = .error e ↔ (p < 0 ∨ p + 4 > s.ramSize) ∧ e = .ramOutOfRange p := by
  rw [readOperand_error_iff, resolve_pointer, ite_error_eq_error_iff]
  simp

theorem readOperand_registerValue_error_iff :
    s.readOperand (.registerValue p) = .error e ↔
      ((p < 0 ∨ p ≥ s.nregs) ∧ e = .badRegister p) ∨
        (0 ≤ p ∧ p < s.nregs ∧ s.readOperand (.pointer (s.reg p.toNat).toInt) = .error e) := by
  rw [readOperand_error_iff, resolve_registerValue, ite_error_eq_error_iff, readOperand_error_iff, not_or, not_lt,
    ge_iff_le, not_le, and_assoc]

end Read

/-- Settles O20: one rule for each mode and each of the two answers. -/
theorem operandValueByMode : Obligations.OperandValueByMode := by
  intro s v e
  refine ⟨fun p => readOperand_register_ok_iff, fun p => ?_, fun p => readOperand_pointer_ok_iff,
    fun p => readOperand_constant_ok_iff, fun o => readOperand_error_iff, fun p => readOperand_register_error_iff,
    fun p => ?_, fun p => readOperand_pointer_error_iff, fun p h => ?_, fun tag => ?_⟩
  · rw [readOperand_registerValue_ok_iff, readOperand_pointer_ok_iff]
  · rw [readOperand_registerValue_error_iff, readOperand_pointer_error_iff]
  · rw [readOperand_error_iff, resolve_constant] at h
    cases h
  · rw [readOperand_error_iff, resolve_invalid, Except.error.injEq, eq_comm]

/-! ### Stores -/

/-- RAM refuses a number outside the encoder's domain (R105). -/
theorem store_ram_of_not_storable {a : Nat} {v : Word} (s : State) (h : ¬Storable (.ram a) v) :
    s.store (.ram a) v = .error (.encodeRange v.toInt) := by
  have henc : enc v.toInt = none := (enc_eq_none_iff _).mpr (by
    simp only [Storable, not_and_or, not_le] at h
    exact h)
  simp only [State.store, State.numWrite, henc]

theorem store_ram_of_storable {a : Nat} {v : Word} (s : State) (h : Storable (.ram a) v) :
    ∃ q, enc v.toInt = some q ∧ s.store (.ram a) v = .ok (s.setRamQuad a q) := by
  obtain ⟨q, hq⟩ := enc_isSome h.1 h.2
  exact ⟨q, hq, State.numWrite_of_enc hq⟩

/-- A statement of length `n` wrote `v` to the destination `l` and changed nothing else. -/
def Completed (s t : State) (l : Location) (v : Word) (n : Nat) : Prop :=
  t.pc = s.pc + n ∧ Writes s t l v ∧ t.flag = s.flag ∧ SameDevices s t ∧ SameMachine s t

/-- A store at a destination that can take the word completes, and writes it alone (R105). -/
theorem store_completes {s : State} {l : Location} {v : Word} (n : Nat) (hloc : s.LocationOk l)
    (hconst : ∀ w, l ≠ .const w) (hv : Storable l v) :
    ∃ u, s.store l v = .ok u ∧ Completed s (u.advance n) l v n := by
  cases l with
  | reg i =>
    have hwrites : Writes s ((s.setReg i v).advance n) (.reg i) v :=
      ⟨s.reg_setReg_self i v hloc, fun j hj => s.reg_setReg_other i j v hj.symm, List.length_set, fun _ => rfl⟩
    exact ⟨_, rfl, rfl, hwrites, rfl, ⟨rfl, rfl, rfl⟩, rfl, rfl, rfl, rfl, rfl, rfl, rfl, rfl⟩
  | ram a =>
    obtain ⟨q, hq, hstore⟩ := store_ram_of_storable s hv
    have hwrites : Writes s ((s.setRamQuad a q).advance n) (.ram a) v :=
      ⟨hq.trans (congrArg some (s.ramQuad_setRamQuad a q).symm), fun x => s.ramByte_setRamQuad_outside a x q, rfl⟩
    exact ⟨_, hstore, rfl, hwrites, rfl, ⟨rfl, rfl, rfl⟩, rfl, rfl, rfl, rfl, rfl, rfl, rfl, rfl⟩
  | const w => exact absurd rfl (hconst w)

/-- A number stored in RAM is read back through any pointer to it. -/
theorem readOperand_pointer_setRamQuad {s : State} {p : Int} {v : Word} {q : Quad} (hp : 0 ≤ p)
    (hroom : p + 4 ≤ s.ramSize) (hq : enc v.toInt = some q) :
    (s.setRamQuad p.toNat q).readOperand (.pointer p) = .ok v := by
  refine readOperand_pointer_ok_iff.mpr ⟨hp, hroom, ?_⟩
  rw [State.ramQuad_setRamQuad, dec_of_enc hq]

/-- R106: the operand resolves again to the location written, for the store changes no register that holds a RAM
address. -/
theorem readOperand_of_store {s t : State} {k : Nat} {o : Operand} {l : Location} {v : Word}
    (hl : s.resolveDest k o = .ok l) (ht : s.store l v = .ok t) : t.readOperand o = .ok v := by
  obtain ⟨hres, hconst⟩ := State.resolveDest_ok hl
  rcases State.resolve_ok hres with ⟨p, rfl, hp, hlt, rfl⟩ | ⟨p, rfl, hp, hlt, ha, hroom, rfl⟩ |
    ⟨p, rfl, hp, hroom, rfl⟩ | ⟨p, _, rfl⟩
  · cases ht
    refine readOperand_register_ok_iff.mpr ⟨hp, by rwa [State.nregs, State.setReg_regs, List.length_set], ?_⟩
    exact (s.reg_setReg_self _ v (by omega)).symm
  · obtain ⟨q, hq, rfl⟩ := State.numWrite_ok ht
    exact readOperand_registerValue_ok_iff.mpr ⟨hp, hlt, readOperand_pointer_setRamQuad ha hroom hq⟩
  · obtain ⟨q, hq, rfl⟩ := State.numWrite_ok ht
    exact readOperand_pointer_setRamQuad hp hroom hq
  · exact absurd rfl (hconst _)

/-- Settles O22: `readOperand_of_store`, and which words a register, RAM and a constant take. -/
theorem writtenOperandReadsBack : Obligations.WrittenOperandReadsBack := by
  intro s k o v
  refine ⟨fun l t => readOperand_of_store, fun i _ => ⟨_, rfl⟩, fun a _ hmin hmax => ?_, fun a _ hv => ?_,
    fun p ho => ?_⟩
  · obtain ⟨q, _, hstore⟩ := store_ram_of_storable s (a := a) ⟨hmin, hmax⟩
    exact ⟨_, hstore⟩
  · exact store_ram_of_not_storable s (by simp only [Storable]; omega)
  · rw [ho, resolveDest_of_resolve_const (resolve_constant s p)]

end Sys2Proof.Proofs
end

section
/-! PROOFS. move and the eight two-source instructions (R120 to R133): completion, faults and the laws of division. -/

namespace Sys2Proof.Proofs

open Sys2Proof Sys2Proof.Machine Sys2Proof.Claims

/-! ### The bodies once their operands are read -/

section Bodies

variable {s : State} {a b src dst : Operand} {va vb v r : Word} {l : Location} {e : Cause}
  {op : Word → Word → Except Cause Word}

theorem moveBody_of_read (hv : s.readOperand src = .ok v) (hl : s.resolveDest 1 dst = .ok l) :
    s.moveBody src dst = s.store l v >>= fun t => .ok (t.advance lenWide) := by
  simp only [State.moveBody, hv, hl, except_ok_bind]

theorem binaryBody_of_result (ha : s.readOperand a = .ok va) (hb : s.readOperand b = .ok vb) (hr : op va vb = .ok r)
    (hl : s.resolveDest 2 dst = .ok l) :
    s.binaryBody op a b dst = s.store l r >>= fun t => .ok (t.advance lenWide) := by
  simp only [State.binaryBody, ha, hb, hr, hl, except_ok_bind]

theorem binaryBody_of_operation_error (ha : s.readOperand a = .ok va) (hb : s.readOperand b = .ok vb)
    (he : op va vb = .error e) : s.binaryBody op a b dst = .error e := by
  simp only [State.binaryBody, ha, hb, he, except_ok_bind, except_error_bind]

end Bodies

/-! ### move -/

/-- Settles O23: the body stores at a destination that takes the value (`store_completes`) and advances. -/
theorem moveCopiesTheValue : Obligations.MoveCopiesTheValue := by
  intro s c src dst v l hc hv hl hstorable
  obtain ⟨hres, hconst⟩ := State.resolveDest_ok hl
  obtain ⟨u, hu, hdone⟩ := store_completes lenWide (State.locationOk_of_resolve hres) hconst hstorable
  refine ⟨_, State.conditional_ok hc ?_, hdone⟩
  rw [moveBody_of_read hv hl, hu, except_ok_bind]

/-- Settles O24: the first part of the body that fails raises. -/
theorem moveFaultsInOrder : Obligations.MoveFaultsInOrder := by
  intro s c src dst hc
  refine ⟨fun e he => State.conditional_error hc ?_, fun v e hv he => State.conditional_error hc ?_,
    fun v a hv hl hfull => State.conditional_error hc ?_⟩
  · simp only [State.moveBody, he, except_error_bind]
  · simp only [State.moveBody, hv, he, except_ok_bind, except_error_bind]
  · rw [moveBody_of_read hv hl, store_ram_of_not_storable s hfull, except_error_bind]

/-! ### The two-source instructions -/

section Binary

variable {mk : Cond → Operand → Operand → Operand → Instr} {op : Word → Word → Word} {pre : Word → Word → Prop}
  {alu : Word → Word → Except Cause Word}

/-- An instruction over the template of R129 completes where its operation has a result. -/
theorem binaryCompletes_of_operation
    (hexec : ∀ c a b d s, exec (mk c a b d) s = s.conditional c lenWide (s.binaryBody alu a b d))
    (halu : ∀ va vb, pre va vb → alu va vb = .ok (op va vb)) : BinaryCompletes mk op pre := by
  intro s c a b d va vb l hc ha hb hpre hl hstorable
  obtain ⟨hres, hconst⟩ := State.resolveDest_ok hl
  obtain ⟨u, hu, hdone⟩ := store_completes lenWide (State.locationOk_of_resolve hres) hconst hstorable
  refine ⟨_, (hexec c a b d s).trans (State.conditional_ok hc ?_), hdone⟩
  rw [binaryBody_of_result ha hb (halu va vb hpre) hl, hu, except_ok_bind]

/-- The template of R129 raises what the first part of it that fails raises. -/
theorem binaryFaults_of_operation
    (hexec : ∀ c a b d s, exec (mk c a b d) s = s.conditional c lenWide (s.binaryBody alu a b d))
    (halu : ∀ va vb, pre va vb → alu va vb = .ok (op va vb)) : BinaryFaults mk op pre := by
  intro s c a b d hc
  simp only [hexec]
  refine ⟨fun e he => State.conditional_error hc ?_, fun va e ha he => State.conditional_error hc ?_,
    fun va vb e ha hb hpre he => State.conditional_error hc ?_,
    fun va vb x ha hb hpre hl hfull => State.conditional_error hc ?_⟩
  · simp only [State.binaryBody, he, except_error_bind]
  · simp only [State.binaryBody, ha, he, except_ok_bind, except_error_bind]
  · simp only [State.binaryBody, ha, hb, halu va vb hpre, he, except_ok_bind, except_error_bind]
  · rw [binaryBody_of_result ha hb (halu va vb hpre) hl, store_ram_of_not_storable s hfull, except_error_bind]

end Binary

theorem aluDivide_of_ne_zero (a b : Word) (h : divisorNotZero a b) :
    aluDivide a b = .ok (wrap32 (a.toInt.tdiv b.toInt)) := if_neg h

theorem aluModulo_of_ne_zero (a b : Word) (h : divisorNotZero a b) :
    aluModulo a b = .ok (wrap32 (a.toInt - a.toInt.tdiv b.toInt * b.toInt)) := if_neg h

/-- The word whose bits are `f` is any word with those bits. -/
theorem eq_ofFnLE {w : Word} {f : Fin 32 → Bool} (h : ∀ i : Fin 32, w.getLsbD i = f i) : w = BitVec.ofFnLE f :=
  BitVec.eq_of_getLsbD_eq fun i hi => by rw [BitVec.getLsbD_ofFnLE, dif_pos hi, ← h ⟨i, hi⟩]

/-- Settles O25: the template over the three operations that always have a result. -/
theorem addSubtractMultiplyWriteTheWrappedResult : Obligations.AddSubtractMultiplyWriteTheWrappedResult :=
  ⟨binaryCompletes_of_operation (alu := aluAdd) (fun _ _ _ _ _ => rfl) fun _ _ _ => rfl,
    binaryCompletes_of_operation (alu := aluSubtract) (fun _ _ _ _ _ => rfl) fun _ _ _ => rfl,
    binaryCompletes_of_operation (alu := aluMultiply) (fun _ _ _ _ _ => rfl) fun _ _ _ => rfl⟩

/-- Settles O26: the template over division, which has a result for a divisor that is not 0. -/
theorem divideModuloWriteQuotientAndRemainder : Obligations.DivideModuloWriteQuotientAndRemainder :=
  ⟨binaryCompletes_of_operation (alu := aluDivide) (fun _ _ _ _ _ => rfl) aluDivide_of_ne_zero,
    binaryCompletes_of_operation (alu := aluModulo) (fun _ _ _ _ _ => rfl) aluModulo_of_ne_zero⟩

/-- Settles O27: the template over the bitwise operations, whose results are determined by their bits. -/
theorem bitwiseInstructionsWriteEachBit : Obligations.BitwiseInstructionsWriteEachBit :=
  ⟨binaryCompletes_of_operation (alu := aluAnd) (fun _ _ _ _ _ => rfl) fun _ _ _ =>
      congrArg Except.ok (eq_ofFnLE fun _ => BitVec.getLsbD_and),
    binaryCompletes_of_operation (alu := aluOr) (fun _ _ _ _ _ => rfl) fun _ _ _ =>
      congrArg Except.ok (eq_ofFnLE fun _ => BitVec.getLsbD_or),
    binaryCompletes_of_operation (alu := aluXor) (fun _ _ _ _ _ => rfl) fun _ _ _ =>
      congrArg Except.ok (eq_ofFnLE fun _ => BitVec.getLsbD_xor)⟩

/-- Settles O28: the template's faults for each of the eight operations. -/
theorem binaryFaultsInOrder : Obligations.BinaryFaultsInOrder :=
  ⟨binaryFaults_of_operation (alu := aluAdd) (fun _ _ _ _ _ => rfl) fun _ _ _ => rfl,
    binaryFaults_of_operation (alu := aluSubtract) (fun _ _ _ _ _ => rfl) fun _ _ _ => rfl,
    binaryFaults_of_operation (alu := aluMultiply) (fun _ _ _ _ _ => rfl) fun _ _ _ => rfl,
    binaryFaults_of_operation (alu := aluDivide) (fun _ _ _ _ _ => rfl) aluDivide_of_ne_zero,
    binaryFaults_of_operation (alu := aluModulo) (fun _ _ _ _ _ => rfl) aluModulo_of_ne_zero,
    binaryFaults_of_operation (alu := aluAnd) (fun _ _ _ _ _ => rfl) fun _ _ _ => rfl,
    binaryFaults_of_operation (alu := aluOr) (fun _ _ _ _ _ => rfl) fun _ _ _ => rfl,
    binaryFaults_of_operation (alu := aluXor) (fun _ _ _ _ _ => rfl) fun _ _ _ => rfl⟩

/-- Settles O29: the operation raises before the destination is resolved. -/
theorem zeroDivisorRaises : Obligations.ZeroDivisorRaises := by
  intro s c a b d va vb hc ha hb hzero
  exact ⟨State.conditional_error hc (binaryBody_of_operation_error ha hb (if_pos hzero)),
    State.conditional_error hc (binaryBody_of_operation_error ha hb (if_pos hzero))⟩

/-! ### Division -/

/-- The truncated quotient of two words fits a word, but for −2^31 by −1 (R131). -/
theorem tdiv_fits {a b : Word} (hwrap : ¬(a.toInt = -2147483648 ∧ b.toInt = -1)) :
    -2147483648 ≤ a.toInt.tdiv b.toInt ∧ a.toInt.tdiv b.toInt ≤ 2147483647 := by
  have ha := word_toInt_bounds a
  generalize a.toInt = m at *
  generalize b.toInt = n at *
  by_cases htwo : 2 ≤ n.natAbs
  · have habs : (m.tdiv n).natAbs ≤ m.natAbs / 2 := (Int.natAbs_tdiv m n).le.trans (Nat.div_le_div_left htwo two_pos)
    omega
  · obtain rfl | rfl | rfl : n = 0 ∨ n = 1 ∨ n = -1 := by omega
    · rw [Int.tdiv_zero]
      omega
    · rw [Int.tdiv_one]
      omega
    · rw [Int.tdiv_neg, Int.tdiv_one]
      omega

/-- The remainder has the sign of the dividend, or is 0 (R131). -/
theorem tmod_sign (m n : Int) : (0 ≤ m → 0 ≤ m.tmod n) ∧ (m ≤ 0 → m.tmod n ≤ 0) := by
  refine ⟨Int.tmod_nonneg n, fun hm => ?_⟩
  have hneg := Int.tmod_nonneg n (Int.neg_nonneg_of_nonpos hm)
  rw [Int.neg_tmod] at hneg
  exact Int.nonpos_of_neg_nonneg hneg

/-- The word modulo writes is the exact remainder: it is no larger than the dividend, so it fits (R125). -/
theorem toInt_aluModulo_result (a b : Word) :
    (wrap32 (a.toInt - a.toInt.tdiv b.toInt * b.toInt)).toInt = a.toInt.tmod b.toInt := by
  have hexact : a.toInt - a.toInt.tdiv b.toInt * b.toInt = a.toInt.tmod b.toInt := by
    rw [Int.tmod_def, Int.mul_comm]
  have hsize : (a.toInt.tmod b.toInt).natAbs ≤ a.toInt.natAbs := by
    rw [Int.natAbs_tmod]
    exact Nat.mod_le _ _
  obtain ⟨hpos, hneg⟩ := tmod_sign a.toInt b.toInt
  have ha := word_toInt_bounds a
  rw [hexact]
  exact toInt_wrap32 (by omega) (by omega)

/-- Settles O30: the remainder is exact (`toInt_aluModulo_result`), and so is the quotient where it fits (`tdiv_fits`);
the one quotient that does not is computed. -/
theorem divisionLaws : Obligations.DivisionLaws := by
  intro a b hb
  have hrem := toInt_aluModulo_result a b
  obtain ⟨hpos, hneg⟩ := tmod_sign a.toInt b.toInt
  refine ⟨_, _, aluDivide_of_ne_zero a b hb, aluModulo_of_ne_zero a b hb, fun ⟨hmin, hone⟩ => ?_, fun hwrap => ?_, ?_,
    ?_, ?_⟩
  · rw [hrem, hmin, hone]
    decide
  · obtain ⟨hlow, hhigh⟩ := tdiv_fits hwrap
    rw [toInt_wrap32 hlow hhigh, hrem]
    exact ⟨(Int.tdiv_mul_add_tmod _ _).symm, Int.natAbs_tdiv _ _⟩
  · rw [hrem, Int.natAbs_tmod]
    exact Nat.mod_lt _ (Int.natAbs_pos.mpr hb)
  · rwa [hrem]
  · rwa [hrem]

end Sys2Proof.Proofs
end

section
/-! PROOFS. compare and branch (R140 to R144): completion, faults, and what the conditions say after a compare. -/

namespace Sys2Proof.Proofs

open Sys2Proof Sys2Proof.Machine Sys2Proof.Claims

section Bodies

variable {s : State} {a b : Operand} {va vb t : Word}

theorem compareBody_of_read (ha : s.readOperand a = .ok va) (hb : s.readOperand b = .ok vb) :
    s.compareBody a b = .ok ((s.setFlag (compareFlag va vb)).advance lenWide) := by
  simp only [State.compareBody, ha, hb, except_ok_bind]

theorem branchBody_of_read (ht : s.readOperand a = .ok t) : s.branchBody a = s.branchTo t.toInt := by
  simp only [State.branchBody, ht, except_ok_bind]

end Bodies

/-- Settles O31: `compareBody_of_read`. -/
theorem compareWritesTheFlag : Obligations.CompareWritesTheFlag := fun _ _ _ _ _ _ hc ha hb =>
  State.conditional_ok hc (compareBody_of_read ha hb)

/-- Settles O33: the target passes the range check of R141. -/
theorem branchMovesThePc : Obligations.BranchMovesThePc := by
  intro s c target t hc ht hmin hmax
  refine State.conditional_ok hc ((branchBody_of_read ht).trans ?_)
  exact if_neg (by omega)

/-- Settles O34: the first part of a body that fails raises. -/
theorem compareBranchAndOutputFaults : Obligations.CompareBranchAndOutputFaults := by
  intro s c a b hc
  refine ⟨fun e he => ⟨State.conditional_error hc ?_, State.conditional_error hc ?_, State.conditional_error hc ?_⟩,
    fun va e ha he => State.conditional_error hc ?_, fun t ht hout => State.conditional_error hc ?_⟩
  · simp only [State.compareBody, he, except_error_bind]
  · simp only [State.branchBody, he, except_error_bind]
  · simp only [State.writeOutputBody, he, except_error_bind]
  · simp only [State.compareBody, ha, he, except_ok_bind, except_error_bind]
  · exact (branchBody_of_read ht).trans (if_pos hout)

/-- The flag a compare writes: the exact difference where it fits a word, else one period off (R140, R142). -/
theorem compareFlag_cases (a b : Word) :
    (a.toInt - b.toInt < -2147483648 ∧ (compareFlag a b).toInt = a.toInt - b.toInt + 4294967296) ∨
      (a.toInt - b.toInt > 2147483647 ∧ (compareFlag a b).toInt = a.toInt - b.toInt - 4294967296) ∨
      (-2147483648 ≤ a.toInt - b.toInt ∧ a.toInt - b.toInt ≤ 2147483647 ∧
        (compareFlag a b).toInt = a.toInt - b.toInt) := by
  have ha := word_toInt_bounds a
  have hb := word_toInt_bounds b
  rw [compareFlag, wrap32, BitVec.toInt_ofInt, Int.bmod_def]
  omega

/-- Settles O32: each condition compares the flag with 0 (O17), and the flag is the difference or one period off
(`compareFlag_cases`). -/
theorem conditionsAfterCompare : Obligations.ConditionsAfterCompare := by
  intro a b f d
  obtain ⟨heq, hne, hgt, hngt, hlt, hnlt, _⟩ := conditionTable f
  have ha := word_toInt_bounds a
  have hb := word_toInt_bounds b
  have hf : (d < -2147483648 ∧ f.toInt = d + 4294967296) ∨ (d > 2147483647 ∧ f.toInt = d - 4294967296) ∨
      (-2147483648 ≤ d ∧ d ≤ 2147483647 ∧ f.toInt = d) := compareFlag_cases a b
  have hd : d = a.toInt - b.toInt := rfl
  rw [heq, hne, hgt, hngt, hlt, hnlt, ne_eq, ne_eq, ← BitVec.toInt_inj]
  clear_value f d
  refine ⟨?_, ?_, fun hfits => ?_, fun hover => ?_, fun _ => ?_⟩ <;> omega

end Sys2Proof.Proofs
end

section
/-! PROOFS. The console and the disk (R150 to R155): completion, faults, and a machine that waits for input. -/

namespace Sys2Proof.Proofs

open Sys2Proof Sys2Proof.Machine Sys2Proof.Claims

/-! ### The console -/

section Console

variable {s : State} {dst : Operand} {l : Location}

/-- R154: with no input the engine waits. -/
theorem readInputBody_of_empty (hl : s.resolveDest 0 dst = .ok l) (hcin : s.cin = []) :
    s.readInputBody dst = .ok s := by
  simp only [State.readInputBody, State.consoleIn, hl, hcin, except_ok_bind]

theorem readInputBody_of_byte {b : Byte} {rest : List Byte} (hl : s.resolveDest 0 dst = .ok l)
    (hcin : s.cin = b :: rest) :
    s.readInputBody dst =
      ({ s with cin := rest } : State).store l (byteToWord b) >>= fun t => .ok (t.advance lenNarrow) := by
  simp only [State.readInputBody, State.consoleIn, hl, hcin, except_ok_bind]

end Console

theorem byteToWord_eq_ofNat (b : Byte) : byteToWord b = BitVec.ofNat 32 b.toNat := by
  have hb := byte_lt b
  refine BitVec.eq_of_toInt_eq ((toInt_byteToWord b).trans ?_)
  rw [BitVec.toInt_ofNat', Int.bmod_def]
  omega

/-- A byte fits any destination. -/
theorem storable_byteToWord (l : Location) (b : Byte) : Storable l (byteToWord b) := by
  have hb := byte_lt b
  cases l with
  | reg _ | const _ => trivial
  | ram _ =>
    simp only [Storable, toInt_byteToWord]
    omega

theorem lowByte_eq_ofNat (v : Word) : lowByte v = BitVec.ofNat 8 (v.toInt % 256).toNat := by
  refine byte_ext ?_
  rw [lowByte, BitVec.toNat_setWidth, BitVec.toNat_ofNat, BitVec.toInt_eq_toNat_cond]
  omega

/-- Settles O35: the byte is taken and stored in the state without it, whose other parts are those of `s`. -/
theorem readInputStoresTheByte : Obligations.ReadInputStoresTheByte := by
  intro s c dst l b rest hc hl hcin
  obtain ⟨hres, hconst⟩ := State.resolveDest_ok hl
  obtain ⟨u, hu, hpc, hwrites, hflag, ⟨hdisk, hin, hout⟩, hmachine⟩ :=
    store_completes (s := { s with cin := rest }) lenNarrow (State.locationOk_of_resolve hres) hconst
      (storable_byteToWord l b)
  refine ⟨u.advance lenNarrow, State.conditional_ok hc ?_, hpc, ?_, hin, hout, hdisk, hflag, hmachine⟩
  · rw [readInputBody_of_byte hl hcin, hu, except_ok_bind]
  · rw [← byteToWord_eq_ofNat]
    exact hwrites

/-- Settles O36: the destination is resolved before the input is looked at. -/
theorem readInputDestinationFaults : Obligations.ReadInputDestinationFaults := by
  intro s c dst e hc he
  refine ⟨State.conditional_error hc ?_, rfl⟩
  simp only [State.readInputBody, he, except_error_bind]

/-- Settles O38: the body of write-output, whose low byte is the value modulo 256. -/
theorem writeOutputAppendsTheLowByte : Obligations.WriteOutputAppendsTheLowByte := by
  intro s c src v hc hv
  have hbody : s.writeOutputBody src = .ok ((s.consoleOut (lowByte v)).advance lenNarrow) := by
    simp only [State.writeOutputBody, hv, except_ok_bind]
  rw [← lowByte_eq_ofNat]
  exact State.conditional_ok hc hbody

/-! ### Waiting for input -/

/-- A blocked machine runs, and its next statement is an executed read-input that resolves, with no input. -/
theorem blocked_cases {s : State} (h : s.blocked = true) :
    s.status = .running ∧ s.pc ≠ s.len ∧ s.cin = [] ∧
      ∃ bs c dst l, s.fetchWindow = .ok bs ∧ decode bs = .ok (.readInput c dst) ∧ c.holds s.flag = true ∧
        s.resolveDest 0 dst = .ok l := by
  unfold State.blocked at h
  split at h
  · rename_i bs hrun hbs
    split at h
    · rename_i c dst hdec
      simp only [Bool.and_eq_true, decide_eq_true_eq, List.isEmpty_iff] at h
      obtain ⟨⟨⟨hc, hok⟩, hcin⟩, hpc⟩ := h
      cases hl : s.resolveDest 0 dst with
      | ok l => exact ⟨hrun, hpc, hcin, bs, c, dst, l, hbs, hdec, hc, hl⟩
      | error e =>
        rw [hl] at hok
        cases hok
    · cases h
  · cases h

/-- Input is no part of what a fetch reads. -/
theorem streamBytes_supplyInput (s : State) (more : List Byte) (n i : Nat) :
    (s.supplyInput more).streamBytes n i = s.streamBytes n i := by
  induction n generalizing i with
  | zero => rfl
  | succ n ih =>
    have hbyte : (s.supplyInput more).streamByte i = s.streamByte i := rfl
    simp only [State.streamBytes, hbyte, ih, State.supplyInput_current]

theorem resolveDest_supplyInput (s : State) (more : List Byte) (k : Nat) (o : Operand) :
    (s.supplyInput more).resolveDest k o = s.resolveDest k o := rfl

/-- Settles O37: the same read-input is fetched with and without the input (`streamBytes_supplyInput`); without it the
body waits, and with it the byte is stored as O35 says. -/
theorem blockedMachineWaitsForInput : Obligations.BlockedMachineWaitsForInput := by
  intro s hblocked
  obtain ⟨hrun, hpc, hcin, bs, c, dst, l, hbs, hdec, hc, hl⟩ := blocked_cases hblocked
  refine ⟨?_, fun b more => ?_⟩
  · rw [stepRunsTheDecodedInstruction s bs _ hrun hpc hbs hdec]
    exact State.conditional_ok hc (readInputBody_of_empty hl hcin)
  · have hbs' : (s.supplyInput (b :: more)).fetchWindow = .ok bs := (streamBytes_supplyInput ..).trans hbs
    have hcin' : (s.supplyInput (b :: more)).cin = b :: more := by rw [State.supplyInput_cin, hcin, List.nil_append]
    obtain ⟨t, ht, htpc, _, htcin, _, _, _, _, _, hstatus, _⟩ :=
      readInputStoresTheByte (s.supplyInput (b :: more)) c dst l b more hc hl hcin'
    refine ⟨t, ?_, htcin, htpc, hstatus.trans hrun⟩
    rw [stepRunsTheDecodedInstruction (s.supplyInput (b :: more)) bs _ hrun hpc hbs' hdec, ht]

/-! ### The disk -/

section Disk

variable {s : State} {x y : Operand} {o v : Word} {l : Location}

theorem diskSpan_of_range {o : Int} (hmin : 0 ≤ o) (hmax : o + 4 ≤ s.disk.length) : s.diskSpan o = .ok o.toNat :=
  State.diskSpan_ok_iff.mpr ⟨hmin, hmax, rfl⟩

theorem diskSpan_of_outside {o : Int} (h : o < 0 ∨ o + 4 > s.disk.length) :
    s.diskSpan o = .error (.diskOutOfRange o) := if_pos h

/-- The disk number is a word with the value its four bytes decode to. -/
theorem diskNumRead_eq {a : Nat}
    (hv : v.toInt = dec ⟨s.diskByte a, s.diskByte (a + 1), s.diskByte (a + 2), s.diskByte (a + 3)⟩) :
    s.diskNumRead a = v := (eq_wrap32_dec_iff.mpr hv).symm

theorem diskReadBody_of_read (ho : s.readOperand x = .ok o) (hmin : 0 ≤ o.toInt)
    (hmax : o.toInt + 4 ≤ s.disk.length) (hl : s.resolveDest 1 y = .ok l) :
    s.diskReadBody x y = s.store l (s.diskNumRead o.toInt.toNat) >>= fun t => .ok (t.advance lenWide) := by
  simp only [State.diskReadBody, ho, diskSpan_of_range hmin hmax, hl, except_ok_bind]

theorem diskWriteBody_of_read (hv : s.readOperand x = .ok v) (ho : s.readOperand y = .ok o) (hmin : 0 ≤ o.toInt)
    (hmax : o.toInt + 4 ≤ s.disk.length) :
    s.diskWriteBody x y = s.diskNumWrite o.toInt.toNat v >>= fun t => .ok (t.advance lenWide) := by
  simp only [State.diskWriteBody, hv, ho, diskSpan_of_range hmin hmax, except_ok_bind]

end Disk

/-- Settles O39: the number is stored at a destination that takes it (`store_completes`). -/
theorem diskReadCopiesTheNumber : Obligations.DiskReadCopiesTheNumber := by
  intro s c offset dst o v l hc ho hmin hmax hv hl hstorable
  obtain ⟨hres, hconst⟩ := State.resolveDest_ok hl
  obtain ⟨u, hu, hdone⟩ := store_completes lenWide (State.locationOk_of_resolve hres) hconst hstorable
  refine ⟨_, State.conditional_ok hc ?_, hdone⟩
  rw [diskReadBody_of_read ho hmin hmax hl, diskNumRead_eq hv, hu, except_ok_bind]

/-- The disk with the four bytes of a number at offset `a` (R45). -/
def diskSetQuad (d : List Byte) (a : Nat) (q : Quad) : List Byte :=
  (((d.set a q.b0).set (a + 1) q.b1).set (a + 2) q.b2).set (a + 3) q.b3

theorem diskNumWrite_of_enc {s : State} {a : Nat} {v : Word} {q : Quad} (h : enc v.toInt = some q) :
    s.diskNumWrite a v = .ok { s with disk := diskSetQuad s.disk a q } := by
  simp only [State.diskNumWrite, h, diskSetQuad]

/-- Every byte of the disk after a number is written inside it. -/
theorem diskSetQuad_getD {d : List Byte} {a : Nat} (q : Quad) (x : Nat) (ha : a + 4 ≤ d.length) :
    (diskSetQuad d a q).getD x 0 =
      if x = a + 3 then q.b3 else if x = a + 2 then q.b2 else if x = a + 1 then q.b1
      else if x = a then q.b0 else d.getD x 0 := by
  have written : ∀ i, i < d.length → ((i = x ∧ i < d.length) ↔ x = i) := fun i hi =>
    ⟨fun h => h.1.symm, fun h => ⟨h.symm, hi⟩⟩
  simp only [diskSetQuad, diskByte_set, List.length_set, written a (by omega), written (a + 1) (by omega),
    written (a + 2) (by omega), written (a + 3) (by omega)]

/-- Settles O40: the store puts the encoder's bytes on the disk, and `diskSetQuad_getD` says where each byte is. -/
theorem diskWriteStoresTheNumber : Obligations.DiskWriteStoresTheNumber := by
  intro s c value offset v o hc hv ho hmin hmax hlow hhigh
  obtain ⟨q, hq⟩ := enc_isSome hlow hhigh
  have byte := diskSetQuad_getD (d := s.disk) (a := o.toInt.toNat) q
  refine ⟨diskSetQuad s.disk o.toInt.toNat q, q, State.conditional_ok hc ?_, hq, ?_, ?_, ?_, ?_, ?_, fun x hx => ?_⟩
  · rw [diskWriteBody_of_read hv ho hmin hmax, diskNumWrite_of_enc hq, except_ok_bind]
    rfl
  · simp only [diskSetQuad, List.length_set]
  · rw [byte _ (by omega), if_neg (by omega), if_neg (by omega), if_neg (by omega), if_pos rfl]
  · rw [byte _ (by omega), if_neg (by omega), if_neg (by omega), if_pos rfl]
  · rw [byte _ (by omega), if_neg (by omega), if_pos rfl]
  · rw [byte _ (by omega), if_pos rfl]
  · rw [byte _ (by omega), if_neg (by omega), if_neg (by omega), if_neg (by omega), if_neg (by omega), State.diskByte]

/-- Settles O41: the first part of the body that fails raises. -/
theorem diskFaultsInOrder : Obligations.DiskFaultsInOrder := by
  intro s c x y hc
  refine ⟨fun e he => ⟨State.conditional_error hc ?_, State.conditional_error hc ?_⟩,
    fun v e hv he => State.conditional_error hc ?_, fun o ho hout => State.conditional_error hc ?_,
    fun o e ho hmin hmax he => State.conditional_error hc ?_,
    fun o v a ho hmin hmax hv hl hfull => State.conditional_error hc ?_,
    fun v o hv ho hout => State.conditional_error hc ?_,
    fun v o hv ho hmin hmax hrange => State.conditional_error hc ?_⟩
  · simp only [State.diskReadBody, he, except_error_bind]
  · simp only [State.diskWriteBody, he, except_error_bind]
  · simp only [State.diskWriteBody, hv, he, except_ok_bind, except_error_bind]
  · simp only [State.diskReadBody, ho, diskSpan_of_outside hout, except_ok_bind, except_error_bind]
  · simp only [State.diskReadBody, ho, diskSpan_of_range hmin hmax, he, except_ok_bind, except_error_bind]
  · rw [diskReadBody_of_read ho hmin hmax hl, diskNumRead_eq hv, store_ram_of_not_storable s hfull, except_error_bind]
  · simp only [State.diskWriteBody, hv, ho, diskSpan_of_outside hout, except_ok_bind, except_error_bind]
  · have henc : enc v.toInt = none := (enc_eq_none_iff _).mpr hrange
    rw [diskWriteBody_of_read hv ho hmin hmax]
    simp only [State.diskNumWrite, henc, except_error_bind]

end Sys2Proof.Proofs
end

section
/-! PROOFS. nested-execution and halt (R160 to R168): a frame pushed, the faults of a call, and the return. -/

namespace Sys2Proof.Proofs

open Sys2Proof Sys2Proof.Machine Sys2Proof.Claims

section Call

variable {s : State} {o n : Int}

theorem ramSpan_of_range (hmin : 0 ≤ o) (hmax : o + n ≤ s.ramSize) : s.ramSpan o n = .ok o.toNat :=
  State.ramSpan_ok_iff.mpr ⟨hmin, hmax, rfl⟩

theorem ramSpan_of_outside (h : o < 0 ∨ o + n > s.ramSize) : s.ramSpan o n = .error (.ramOutOfRange o) := if_pos h

/-- R164: a negative length is a fault of its own, whatever the offset. -/
theorem call_of_neg (hn : n < 0) : s.call o n = .error (.badRange n) := by
  rw [State.call, if_neg hn.ne, if_pos hn]

/-- A call of positive length checks the range, then the depth (R160). -/
theorem call_of_pos (hn : 0 < n) :
    s.call o n = s.ramSpan o n >>= fun base =>
      if s.depth + 1 > s.maxDepth then .error (.nestDepthExceeded (s.depth + 1))
      else .ok ((s.advance lenWide).pushFrame base n.toNat) := by
  rw [State.call, if_neg hn.ne', if_neg hn.not_gt]

end Call

/-- Settles O42: the range and the depth pass their checks, so the call pushes its frame. -/
theorem nestedExecutionPushesAFrame : Obligations.NestedExecutionPushesAFrame := by
  intro s c offset length o n hc ho hn hpos hmin hmax hdepth
  refine State.conditional_ok hc ((nestedExecutionBody_of_read ho hn).trans ?_)
  rw [call_of_pos hpos, ramSpan_of_range hmin hmax, except_ok_bind, if_neg (by omega)]
  rfl

/-- Settles O44: the checks of the call in the order of R160. -/
theorem callFaultsInOrder : Obligations.CallFaultsInOrder := by
  intro s c offset length o n hc ho hn
  have hbody := nestedExecutionBody_of_read ho hn
  refine ⟨fun hneg => State.conditional_error hc (hbody.trans ?_),
    fun hpos hout => State.conditional_error hc (hbody.trans ?_),
    fun hpos hmin hmax hdeep => State.conditional_error hc (hbody.trans ?_)⟩
  · exact call_of_neg hneg
  · rw [call_of_pos hpos, ramSpan_of_outside hout, except_error_bind]
  · rw [call_of_pos hpos, ramSpan_of_range hmin hmax, except_ok_bind, if_pos hdeep]

theorem exec_halt {s : State} {c : Cond} (hc : c.holds s.flag = true) :
    exec (.halt c) s = .next (s.endFrame .haltOp) := by
  rw [exec_eq_conditional]
  exact State.conditional_ok hc rfl

/-- Settles O45: the two cases of the end of a frame (R161). -/
theorem haltEndsTheEnclosingFrame : Obligations.HaltEndsTheEnclosingFrame := by
  intro s c hc
  rw [exec_halt hc]
  refine ⟨fun hdepth => ?_, fun caller rest hcallers => ?_⟩
  · rw [s.endFrame_top _ (List.eq_nil_of_length_eq_zero hdepth)]
  · rw [s.endFrame_nested _ hcallers]

/-- A nested-execution that changes the suspended frames suspended the caller at its next statement (R160). -/
theorem callers_of_nestedExecution {s t : State} {c : Cond} {offset length : Operand}
    (h : exec (.nestedExecution c offset length) s = .next t) (hne : t.callers ≠ s.callers) :
    t.callers = { s.current with pc := s.pc + 17 } :: s.callers := by
  rcases exec_cases h with rfl | hbody | ⟨e, rfl⟩
  · exact absurd rfl hne
  · obtain ⟨o, n, _, _, hcall⟩ := State.nestedExecutionBody_ok hbody
    rcases State.call_ok hcall with ⟨_, rfl⟩ | ⟨_, _, _, _, rfl⟩
    · exact absurd rfl hne
    · rfl
  · exact absurd rfl hne

/-- Settles O46: the callee's suspended frames begin with the caller's, which its halt resumes (O45). -/
theorem callAndHaltResumeTheCaller : Obligations.CallAndHaltResumeTheCaller := by
  intro s t u c c' offset length hcall hne hu hc'
  exact (haltEndsTheEnclosingFrame u c' hc').2 _ _ (hu.trans (callers_of_nestedExecution hcall hne))

end Sys2Proof.Proofs
end
